-- ==== Sys2Proof/Word.lean ====
section
/-! DEFINITION. The word types of the block: every register is 32 bits wide (00_scope.md R6, REG_W) and every data-memory
access is one byte (20_memory.md R53). -/

namespace Sys2Proof

/-- A register's contents, and an address of data memory (REG_W = ADDR_W = 32, R6). -/
abbrev Word := BitVec 32

/-- A byte of data memory, `v[7:0]` (R7). -/
abbrev Byte := BitVec 8

end Sys2Proof
end

