-- ==== Sys2Proof/Config.lean ====
section
/-! DEFINITION. The implementation parameters of 00_scope.md R6 that have a value, and the free values. The two OPEN
parameters REG_BASE and MEM_ORDINARY are plain data of the state (`Machine.Platform`). -/

namespace Sys2Proof

/-- The reset value of register K (R6, R23). -/
def Config.kReset : Word := 5

/-- The largest bit length a length register holds, 2^32 - 1 (R6, LEN_MAX). -/
def Config.lenMax : Nat := 2 ^ 32 - 1

/-- The size of the data memory in bytes (R50; ADDR_W = 32, R6). -/
def Config.memSize : Nat := 2 ^ 32

/-- What a byte of data memory reads as while nothing has written it.
DESIGN CHOICE (log entry 5, unsafe): the spec leaves the launch contents of data memory to the platform (R182); the
programs of 95_test_vectors.md section 5 start from 0x00 everywhere. -/
def Config.blankByte : Byte := 0

/-- The free bytes, `any` of R11: the n-th byte drawn. It has no body, so no proof can see which byte it is
(log entry 7). -/
opaque Config.freeByte : Nat → Byte

end Sys2Proof
end

