-- ==== Sys2Proof/Syntax.lean ====
section
/-! DEFINITION. The names of the block: its commands (one constructor per row of opcode_table.json), its registers, its
error kinds, its agents, and the lines of a host program (30_encoding.md R80). -/

namespace Sys2Proof

/-- A command word, 30_encoding.md R74 and R75. The constructor is OP = w[1:0]; the argument is field A = w[31:2], which
the block ignores: it is kept so that no bit of the word is dropped (log entry 15). -/
inductive Instr where
  /-- OP = 0b00 (R101). -/
  | nop (a : BitVec 30)
  /-- OP = 0b01 (R120). -/
  | encode (a : BitVec 30)
  /-- OP = 0b10 (R140). -/
  | decode (a : BitVec 30)
  /-- OP = 0b11 (R104): a command of its own, which always completes with INVALID_PARAMETER. -/
  | reserved (a : BitVec 30)
deriving DecidableEq, Repr

/-- The eight registers (10_state.md R20). -/
inductive Reg where
  | cmd | status | k | inAddr | inLen | outAddr | outCap | outLen
deriving DecidableEq, Repr

/-- The running operation, the type of eng.op (10_state.md R30). -/
inductive Op where
  | enc | dec
deriving DecidableEq, Repr

/-- The three error kinds (60_exceptions.md R160). -/
inductive ErrorKind where
  | capacityExceeded | malformedStuffedInput | invalidParameter
deriving DecidableEq, Repr

/-- The three agents (00_scope.md R12). -/
inductive Agent where
  | host | engine | reset
deriving DecidableEq, Repr

/-- A line of a host program (30_encoding.md R80), one host step each. `t` is the number of a host temporary. A register
access is the bus transaction R80 encodes it as: its width in bytes and its address in the host's address space, so
that the accesses R71 refuses can be written down too. A label is the index of the line it stands before. -/
inductive HostOp where
  /-- `MW a, v`: HostMemWrite(a, v) (R51). -/
  | memWrite (a : Word) (v : Byte)
  /-- `MR a -> t`: HostMemRead(a) into temporary t (R51). -/
  | memRead (a : Word) (t : Nat)
  /-- `WR REG, w` at the bus: a write of `width` bytes at host address `addr`. -/
  | busWrite (width addr : Nat) (w : Word)
  /-- `RD REG -> t` at the bus: a read of `width` bytes at host address `addr`. -/
  | busRead (width addr : Nat) (t : Nat)
  /-- `BNZ t, m, label`: if `(t & m) != 0`, continue at `label`. -/
  | branchNonZero (t : Nat) (m : Word) (label : Nat)
deriving DecidableEq, Repr

end Sys2Proof
end

