-- ==== Sys2Proof/Machine/State.lean ====
section
/-! DEFINITION. The state of the machine as plain data, the reasons a step can stop, and the state after reset. -/

namespace Sys2Proof.Machine

/-- The data memory: (address, byte) pairs, addresses rising, no entry equal to what an unlisted address reads as
(20_memory.md R50; the canonical form is `memoryWf` in Machine/Ops.lean). -/
abbrev Memory := List Host.Cell

/-- A range of data memory: `len` bytes from `base` on, modulo 2^32 (20_memory.md R55). -/
structure Window where
  base : Word
  len : Nat
deriving DecidableEq, Repr

/-- The engine's internal state (10_state.md R30), field by field with the widths of that table. -/
structure Engine where
  /-- eng.op, the running operation. -/
  op : Op
  /-- eng.k, K latched at start. -/
  k : Word
  /-- eng.n, IN_LEN latched at start. -/
  n : Word
  /-- eng.in_addr, IN_ADDR latched at start. -/
  inAddr : Word
  /-- eng.out_addr, OUT_ADDR latched at start. -/
  outAddr : Word
  /-- eng.cap_bits, 8 * OUT_CAP latched at start. -/
  capBits : BitVec 35
  /-- eng.i, index of the next input bit. -/
  i : Word
  /-- eng.o, number of output bits written. -/
  o : Word
  /-- eng.run, the run counter. -/
  run : Word
  /-- eng.acc, the current output byte as built so far. -/
  acc : Byte
deriving DecidableEq, Repr

/-- The host agent's own state (30_encoding.md R80): "Host temporaries (t, u, ...) belong to the host. The block neither
holds nor sees them." Log entry 3. -/
structure HostSide where
  /-- The host's program, one line per host step. -/
  prog : List HostOp
  /-- The index of the next line; the program has ended when it is past the last one. -/
  pc : Nat
  /-- The host temporaries by number, in the same canonical form as memory; an unlisted one holds 0. -/
  temps : List (Nat × Word)
deriving DecidableEq, Repr

/-- The OPEN platform parameters (00_scope.md R6, 20_memory.md R58). No step changes them. -/
structure Platform where
  /-- REG_BASE, the host address of register offset 0x00 (log entry 9). -/
  regBase : Nat
  /-- The address ranges that are NOT ordinary memory: MEM_ORDINARY(a) holds of every other address (log entry 8). -/
  devices : List Window
deriving DecidableEq, Repr

/-- Everything the spec gives the machine. CMD holds no state (10_state.md R21) and has no field. -/
structure State where
  /-- STATUS, the whole word (10_state.md R22); its fields are read by Machine/Flags.lean. -/
  status : Word
  /-- K (R23). -/
  k : Word
  /-- IN_ADDR (R24). -/
  inAddr : Word
  /-- IN_LEN (R25). -/
  inLen : Word
  /-- OUT_ADDR (R26). -/
  outAddr : Word
  /-- OUT_CAP (R27). -/
  outCap : Word
  /-- OUT_LEN (R28). -/
  outLen : Word
  /-- The engine's internal state (R30). -/
  eng : Engine
  /-- The data memory (R50). -/
  mem : Memory
  /-- The host agent's own state (R80). -/
  host : HostSide
  /-- The OPEN platform parameters. -/
  platform : Platform
  /-- The MODEL's field: the agents that move next, first one first (R12; log entry 1). -/
  agenda : List Agent
  /-- The MODEL's field: how many free bytes have been drawn (R11 `any`; log entry 7). -/
  draws : Nat
deriving DecidableEq, Repr

/-- The reasons the machine stops with a fault: there are none. No access faults and there is no bus error (R50), a
register access never raises an error (R71), and an error of an operation is a next state (R163). Log entry 18. -/
inductive Fault where
deriving DecidableEq, Repr

/-- The reasons a step has no meaning. All but the first are the spec's own `refuse(...)` (R11). -/
inductive Refusal where
  /-- Raised by an arm of `exec` whose instruction has no meaning yet: none is left. Safe. -/
  | notModelled (mnemonic : String)
  /-- Raised by a start whose IN_WINDOW and OUT_WINDOW share a byte (R57, R102). Safe: the spec refuses it. -/
  | windowOverlap
  /-- Raised by a start with a window byte that is not ordinary memory (R58, R102). Safe: the spec refuses it. -/
  | notMemory
  /-- Raised by a host register access that is not an aligned 32-bit word at one of the eight offsets (R71). Safe: the
  spec refuses it. -/
  | regAccessShape
  /-- Raised by a host write to the running operation's IN_WINDOW (R185). Safe: the spec refuses it. -/
  | inputWrittenWhileBusy
  /-- Raised by a host write to the running operation's OUT_WINDOW (R186). Safe: the spec refuses it. -/
  | outputWrittenWhileBusy
deriving DecidableEq, Repr

/-- The engine as State.reset holds it. DESIGN CHOICE (log entry 6, safe): R34 leaves it unspecified, and R31 makes it
unobservable while BUSY = 0. -/
def Engine.idle : Engine :=
  { op := .enc, k := 0, n := 0, inAddr := 0, outAddr := 0, capBits := 0, i := 0, o := 0, run := 0, acc := 0 }

/-- The machine right after reset (10_state.md R34, 70_reset_and_hazards.md R180): STATUS = 0, K = 5, every other register
0, the engine idle, memory with nothing listed. The host side, the platform and the model's own fields are DESIGN
CHOICES (log entries 1, 3, 4, 7, 8, 9). -/
def State.reset : State :=
  { status := 0, k := Config.kReset, inAddr := 0, inLen := 0, outAddr := 0, outCap := 0, outLen := 0,
    eng := Engine.idle, mem := [],
    host := { prog := [], pc := 0, temps := [] },
    platform := { regBase := 0, devices := [] },
    agenda := [], draws := 0 }

end Sys2Proof.Machine
end

