-- ==== Sys2Proof/Machine/Flags.lean ====
section
/-! DEFINITION. The STATUS word: its fields, the word made of them, and the ERR codes (10_state.md R22, 30_encoding.md
R76, 60_exceptions.md R160). -/

namespace Sys2Proof.Machine

/-- STATUS[0]. -/
def statusBusy (w : Word) : Bool := w.getLsbD 0

/-- STATUS[1]. -/
def statusDone (w : Word) : Bool := w.getLsbD 1

/-- STATUS[4:2]. -/
def statusErr (w : Word) : BitVec 3 := w.extractLsb' 2 3

/-- STATUS[31:5], reserved. -/
def statusReserved (w : Word) : BitVec 27 := w.extractLsb' 5 27

/-- The word with the given fields and its reserved bits 0 (R76). -/
def statusWord (busy done : Bool) (err : BitVec 3) : Word :=
  (0 : BitVec 27) ++ err ++ BitVec.ofBool done ++ BitVec.ofBool busy

/-- The ERR code of an error kind (R76, R160). -/
def errCode (e : ErrorKind) : BitVec 3 :=
  match e with
  | .capacityExceeded => 1
  | .malformedStuffedInput => 2
  | .invalidParameter => 3

/-- STATUS while an operation runs: BUSY 1, DONE 0, ERR 0 (R105). -/
def statusRunning : Word := statusWord true false 0

/-- STATUS after a success: BUSY 0, DONE 1, ERR 0 (R108). -/
def statusSuccess : Word := statusWord false true 0

/-- STATUS after an error: BUSY 0, DONE 1, ERR its code (R163). -/
def statusFailed (e : ErrorKind) : Word := statusWord false true (errCode e)

/-- `reg[STATUS].BUSY = 1`. -/
def busy (s : State) : Bool := statusBusy s.status

end Sys2Proof.Machine
end

