-- ==== Sys2Proof/Machine/Ops.lean ====
section
/-! DEFINITION. The named operations over memory and registers: canonical cell lists, data memory, windows, sequence bits,
free bytes, the host's temporaries, and how an operation ends (complete, raise, an immediate InvalidParameter). -/

namespace Sys2Proof.Machine

/-! ## Cell lists in canonical form -/

/-- What a cell list holds at a key; `d` where the key is not listed. -/
def cellsRead {α : Type} (d : α) (cells : List (Nat × α)) (key : Nat) : α :=
  match cells with
  | [] => d
  | c :: rest => if c.1 = key then c.2 else cellsRead d rest key

/-- Set a key: keys stay rising, and writing `d` removes the entry. -/
def cellsWrite {α : Type} [DecidableEq α] (d : α) (cells : List (Nat × α)) (key : Nat) (v : α) : List (Nat × α) :=
  match cells with
  | [] => if v = d then [] else [(key, v)]
  | c :: rest =>
    if key < c.1 then (if v = d then c :: rest else (key, v) :: c :: rest)
    else if key = c.1 then (if v = d then rest else (key, v) :: rest)
    else c :: cellsWrite d rest key v

/-- The canonical form: keys strictly rising, no entry equal to `d`. -/
def cellsWf {α : Type} [DecidableEq α] (d : α) (cells : List (Nat × α)) : Bool :=
  match cells with
  | [] => true
  | c :: rest => c.2 != d && rest.all (fun e => c.1 < e.1) && cellsWf d rest

/-! ## Data memory (20_memory.md R50, R53) -/

/-- MemRead(a, 1). -/
def memRead (m : Memory) (a : Word) : Byte := cellsRead Config.blankByte m a.toNat

/-- MemWrite(a, 1, v). -/
def memWrite (m : Memory) (a : Word) (v : Byte) : Memory := cellsWrite Config.blankByte m a.toNat v

/-- The canonical form of a data memory: every address below 2^32 (R50), strictly rising, no blank byte listed. -/
def memoryWf (m : Memory) : Bool := cellsWf Config.blankByte m && m.all (fun c => c.1 < Config.memSize)

/-- SeqBit(A, j): "byte `A + (j div 8)` at bit position `7 - (j mod 8)`" (00_scope.md R8). -/
def seqBit (m : Memory) (a : Word) (j : Nat) : Bool := (memRead m (a + BitVec.ofNat 32 (j / 8))).getLsbD (7 - j % 8)

/-- The first `n` bits of the sequence stored at byte address `a`. -/
def seqBits (m : Memory) (a : Word) (n : Nat) : List Bool := (List.range n).map (seqBit m a)

/-! ## Windows (20_memory.md R55 to R58) -/

/-- Is address `a` one of `(base + b) mod 2^32` with `b < len`? -/
def windowHas (w : Window) (a : Word) : Bool := (a - w.base).toNat < w.len

/-- Do two windows share a byte (R57)? -/
def windowsOverlap (v w : Window) : Bool :=
  0 < v.len && 0 < w.len && (windowHas v w.base || windowHas w v.base)

/-- MEM_ORDINARY(a) (R58). -/
def memOrdinary (p : Platform) (a : Word) : Bool := p.devices.all (fun d => !windowHas d a)

/-- Is every byte of a window ordinary memory (R58)? -/
def windowOrdinary (p : Platform) (w : Window) : Bool := p.devices.all (fun d => !windowsOverlap d w)

/-! ## Free bytes (R11 `any`) -/

/-- Write `count` free bytes from address `base` on, the first of them number `draw`. -/
def memFillFree (m : Memory) (base : Word) (draw count : Nat) : Memory :=
  match count with
  | 0 => m
  | c + 1 => memWrite (memFillFree m base draw c) (base + BitVec.ofNat 32 c) (Config.freeByte (draw + c))

/-! ## Named updates of the state -/

/-- Write the two result registers, STATUS and OUT_LEN. -/
def setResult (status len : Word) (s : State) : State := { s with status := status, outLen := len }

/-- Replace the engine's internal state. -/
def setEngine (e : Engine) (s : State) : State := { s with eng := e }

/-- MemWrite on the state's memory. -/
def storeByte (a : Word) (v : Byte) (s : State) : State := { s with mem := memWrite s.mem a v }

/-- Give every byte of a window any value (R163, R181). -/
def forgetWindow (w : Window) (s : State) : State :=
  { s with mem := memFillFree s.mem w.base s.draws w.len, draws := s.draws + w.len }

/-- The agenda moves on (log entry 1). -/
def setAgenda (rest : List Agent) (s : State) : State := { s with agenda := rest }

/-- `count` free bytes have been drawn (log entry 7). -/
def countDraws (count : Nat) (s : State) : State := { s with draws := s.draws + count }

/-- The host goes on to its next line. -/
def hostAdvance (s : State) : State := { s with host := { s.host with pc := s.host.pc + 1 } }

/-- The host continues at a line. -/
def hostJump (label : Nat) (s : State) : State := { s with host := { s.host with pc := label } }

/-- A host temporary (R80). -/
def tempRead (s : State) (t : Nat) : Word := cellsRead 0 s.host.temps t

/-- Set a host temporary. -/
def tempWrite (t : Nat) (v : Word) (s : State) : State :=
  { s with host := { s.host with temps := cellsWrite 0 s.host.temps t v } }

/-! ## Windows of the engine (R55) -/

/-- IN_WINDOW: ceil(eng.n / 8) bytes from eng.in_addr. -/
def inWindow (e : Engine) : Window := { base := e.inAddr, len := (e.n.toNat + 7) / 8 }

/-- OUT_WINDOW: eng.cap_bits / 8 bytes from eng.out_addr. -/
def outWindow (e : Engine) : Window := { base := e.outAddr, len := e.capBits.toNat / 8 }

/-! ## How an operation ends -/

/-- `complete()` (40_command.md R108). -/
def complete (s : State) : State := setResult statusSuccess s.eng.o s

/-- The report common to every error (60_exceptions.md R163, R164): OUT_LEN = 0 and STATUS = BUSY 0, DONE 1, ERR code. -/
def reportError (e : ErrorKind) (s : State) : State := setResult (statusFailed e) 0 s

/-- `raise E()` inside an engine step, the block's "trap entry" (R163): the report, and every byte of the output window
has any value. The engine's internal state stays as it is at that point; it is unobservable (R31, log entry 12). -/
def raiseError (e : ErrorKind) (s : State) : State := reportError e (forgetWindow (outWindow s.eng) s)

/-- An InvalidParameter completion at the CMD write (R102, R104, R164): the report alone, "Data memory is not touched at
all". -/
def completeInvalid (s : State) : State := reportError .invalidParameter s

end Sys2Proof.Machine
end

