-- ==== Sys2Proof/Machine/Operands.lean ====
section
/-! DEFINITION. The operands of a command: the five operand registers at the CMD write (30_encoding.md R77), the parameter
check over them (40_command.md R103), and the engine they are latched into (R105). -/

namespace Sys2Proof.Machine

/-- `ceil(a / b)` is `(a + b - 1) div b` for b ≥ 1 (00_scope.md R10). -/
def ceilDiv (a b : Nat) : Nat := (a + b - 1) / b

/-- `8 * OUT_CAP`, "computed exactly (35 bits wide)" (10_state.md R27). -/
def capacityBits (outCap : Word) : BitVec 35 := BitVec.ofNat 35 (8 * outCap.toNat)

/-- ParamOK(op) (40_command.md R103, 41_encode.md R121, 42_decode.md R141), the sum computed exactly. -/
def paramOk (op : Op) (s : State) : Bool :=
  match op with
  | .enc => s.k != 0 && s.inLen.toNat + ceilDiv s.inLen.toNat s.k.toNat + 8 ≤ Config.lenMax
  | .dec => s.k != 0

/-- The engine that `Latch(op)` gives (40_command.md R105): the operands copied, the per-operation state cleared. -/
def latched (op : Op) (s : State) : Engine :=
  { op := op, k := s.k, n := s.inLen, inAddr := s.inAddr, outAddr := s.outAddr, capBits := capacityBits s.outCap,
    i := 0, o := 0, run := 0, acc := 0 }

end Sys2Proof.Machine
end

