-- ==== Sys2Proof/Machine/Bits.lean ====
section
/-! DEFINITION. The bit helpers of an engine step (40_command.md R109, R110) and the cursor updates the two step functions
share. Each exact sum is narrowed to its register's width at the end (00_scope.md R10; log entry 11). -/

namespace Sys2Proof.Machine

/-- A counter of the engine plus one. -/
def increment (w : Word) : Word := BitVec.ofNat 32 (w.toNat + 1)

/-- GetBit(eng.i) (R110). -/
def getBit (s : State) : Bool := seqBit s.mem s.eng.inAddr s.eng.i.toNat

/-- eng.acc with output bit `b` put at the position of eng.o, a new byte zero-initialised (R109). -/
def accWith (b : Bool) (e : Engine) : Byte :=
  (if e.o.toNat % 8 = 0 then 0 else e.acc) ||| (BitVec.zeroExtend 8 (BitVec.ofBool b) <<< (7 - e.o.toNat % 8))

/-- The address of the byte that output bit eng.o goes to (R56, R109). -/
def outByteAddress (e : Engine) : Word := e.outAddr + BitVec.ofNat 32 (e.o.toNat / 8)

/-- PutBit(b) (R109); none where it raises CapacityExceeded, which is "checked before the write". -/
def putBit (b : Bool) (s : State) : Option State :=
  if s.eng.capBits.toNat ≤ s.eng.o.toNat then none
  else some (setEngine { s.eng with acc := accWith b s.eng, o := increment s.eng.o }
    (storeByte (outByteAddress s.eng) (accWith b s.eng) s))

/-- `eng.run <- r`. -/
def setRun (r : Word) (s : State) : State := setEngine { s.eng with run := r } s

/-- `eng.i <- eng.i + 1`. -/
def nextInputBit (s : State) : State := setEngine { s.eng with i := increment s.eng.i } s

end Sys2Proof.Machine
end

