-- ==== Sys2Proof/Machine/Command.lean ====
section
/-! DEFINITION. What the commands share, the busy test and the start (40_command.md R100, R102), and the meanings of NOP
(R101) and of the reserved OP (R104). -/

namespace Sys2Proof.Machine

/-- "if reg[STATUS].BUSY = 1: return -- command ignored; the running operation is unaffected" (R100). -/
def unlessBusy (act : State → Host.Outcome State Fault Refusal) (s : State) : Host.Outcome State Fault Refusal :=
  if busy s then .next s else act s

/-- `Start(op)` (R102), with `Latch(op)` (R105) where every test passes. -/
def start (op : Op) (s : State) : Host.Outcome State Fault Refusal :=
  if !paramOk op s then .next (completeInvalid s)
  else if windowsOverlap (inWindow (latched op s)) (outWindow (latched op s)) then .refused .windowOverlap
  else if !(windowOrdinary s.platform (inWindow (latched op s)) && windowOrdinary s.platform (outWindow (latched op s)))
    then .refused .notMemory
  else .next (setResult statusRunning 0 (setEngine (latched op s) s))

/-- NOP (R101): no effect. -/
def execNop (_a : BitVec 30) (s : State) : Host.Outcome State Fault Refusal := unlessBusy (fun s => .next s) s

/-- The reserved OP (R104): completes at once with INVALID_PARAMETER. -/
def execReserved (_a : BitVec 30) (s : State) : Host.Outcome State Fault Refusal :=
  unlessBusy (fun s => .next (completeInvalid s)) s

end Sys2Proof.Machine
end

