-- ==== Sys2Proof/Machine/Stuff.lean ====
section
/-! DEFINITION. ENCODE (41_encode.md): the meaning of the command (R120) and its engine step (R122). -/

namespace Sys2Proof.Machine

/-- ENCODE (R120): `Start(ENC)`; the engine then runs `encStep`. -/
def execEncode (_a : BitVec 30) (s : State) : Host.Outcome State Fault Refusal := unlessBusy (start .enc) s

/-- The part of EncStep after an input `1` has been written: count it, and stuff a `0` after the K-th (R122, R124). -/
def countOne (s : State) : State :=
  let counted := setRun (increment s.eng.run) s
  if counted.eng.run = counted.eng.k then
    match putBit false counted with
    | none => raiseError .capacityExceeded counted
    | some stuffed => nextInputBit (setRun 0 stuffed)
  else nextInputBit counted

/-- EncStep() (R122). -/
def encStep (s : State) : State :=
  if s.eng.i = s.eng.n then complete s
  else
    match putBit (getBit s) s with
    | none => raiseError .capacityExceeded s
    | some copied => if getBit s then countOne copied else nextInputBit (setRun 0 copied)

end Sys2Proof.Machine
end

