-- ==== Sys2Proof/Machine/Unstuff.lean ====
section
/-! DEFINITION. DECODE (42_decode.md): the meaning of the command (R140) and its engine step (R142). -/

namespace Sys2Proof.Machine

/-- DECODE (R140): `Start(DEC)`; the engine then runs `decStep`. -/
def execDecode (_a : BitVec 30) (s : State) : Host.Outcome State Fault Refusal := unlessBusy (start .dec) s

/-- DecStep() (R142): the end of the input (R145), a bit in the stuff position (R143, R144), or a data bit. -/
def decStep (s : State) : State :=
  if s.eng.i = s.eng.n then
    if s.eng.run = s.eng.k then raiseError .malformedStuffedInput s else complete s
  else if s.eng.run = s.eng.k then
    if getBit s then raiseError .malformedStuffedInput s else nextInputBit (setRun 0 s)
  else
    match putBit (getBit s) s with
    | none => raiseError .capacityExceeded s
    | some copied => nextInputBit (setRun (if getBit s then increment copied.eng.run else 0) copied)

end Sys2Proof.Machine
end

