-- ==== Sys2Proof/Machine/Engine.lean ====
section
/-! DEFINITION. The engine agent (40_command.md R107) and the reset agent (70_reset_and_hazards.md R180, R181). -/

namespace Sys2Proof.Machine

/-- EngineStep() (R107). -/
def engineStep (s : State) : State :=
  match s.eng.op with
  | .enc => encStep s
  | .dec => decStep s

/-- A turn of the engine agent: its step, which is "enabled exactly while `reg[STATUS].BUSY = 1`" (R107); with no enabled
step the turn changes nothing (log entry 2). -/
def engineTurn (s : State) : State := if busy s then engineStep s else s

/-- `n` turns of the engine. -/
def engineRun (n : Nat) (s : State) : State :=
  match n with
  | 0 => s
  | m + 1 => engineRun m (engineTurn s)

/-- A reset step (R180): every register at its reset value; data memory is unchanged (R182) but for the output window of
an operation that it abandons, which has any value (R181). The engine's internal state is left as it is (R31, R34; log
entry 6), and so are the host's own state and the platform. -/
def resetStep (s : State) : State :=
  let left := if busy s then forgetWindow (outWindow s.eng) s else s
  { left with status := 0, k := Config.kReset, inAddr := 0, inLen := 0, outAddr := 0, outCap := 0, outLen := 0 }

end Sys2Proof.Machine
end

