-- ==== Sys2Proof/Decode.lean ====
section
/-! DEFINITION. The encodings of 30_encoding.md: the command word (R74, R75, R79), total on any word and any width and
rejecting by name, with the encoder after it; and the register map (R70, R71). -/

namespace Sys2Proof

/-- Field OP of a command word, w[1:0] (R74). -/
def opField (w : Word) : BitVec 2 := w.extractLsb' 0 2

/-- Field A of a command word, w[31:2] (R74). -/
def ignoredField (w : Word) : BitVec 30 := w.extractLsb' 2 30

/-- The command a word written to CMD stands for: "The command is decoded from w[1:0] alone" (R79, table of R75). -/
def decodeCommand (w : Word) : Instr :=
  match (opField w).toNat with
  | 0 => .nop (ignoredField w)
  | 1 => .encode (ignoredField w)
  | 2 => .decode (ignoredField w)
  | _ => .reserved (ignoredField w)

/-- Why a bit string is no command. -/
inductive DecodeError where
  /-- The access is not one 32-bit word (R71, R79). -/
  | notOneWord
  /-- The number does not fit in the width given with it. -/
  | tooWide
deriving DecidableEq, Repr

/-- Decode `bits` bits with value `w`: "every command is exactly one 32-bit register write to CMD" (R79). -/
def decodeBits (bits w : Nat) : Except DecodeError Instr :=
  if bits ≠ 32 then .error .notOneWord
  else if w < 2 ^ 32 then .ok (decodeCommand (BitVec.ofNat 32 w))
  else .error .tooWide

/-- The OP value of a command (R75). -/
def opOf (i : Instr) : BitVec 2 :=
  match i with
  | .nop _ => 0
  | .encode _ => 1
  | .decode _ => 2
  | .reserved _ => 3

/-- Field A of a command (R74). -/
def ignoredOf (i : Instr) : BitVec 30 :=
  match i with
  | .nop a => a
  | .encode a => a
  | .decode a => a
  | .reserved a => a

/-- The word that is written to CMD for a command (R74, R75). -/
def encode (i : Instr) : Word := ignoredOf i ++ opOf i

/-- A row of opcode_table.json as a number: its bits above `nbits` are 0 (log entry 16). -/
def decodeTableWord (nbits w : Nat) : Option Instr :=
  if nbits ≤ 32 ∧ w < 2 ^ nbits then
    match decodeBits 32 w with
    | .ok i => some i
    | .error _ => none
  else none

/-- A register's byte offset from REG_BASE (10_state.md R20, 30_encoding.md R70). -/
def regOffset (r : Reg) : Nat :=
  match r with
  | .cmd => 0x00
  | .status => 0x04
  | .k => 0x08
  | .inAddr => 0x0C
  | .inLen => 0x10
  | .outAddr => 0x14
  | .outCap => 0x18
  | .outLen => 0x1C

/-- The register at a byte offset from REG_BASE, where there is one (R70). -/
def regAtOffset (off : Nat) : Option Reg :=
  match off with
  | 0x00 => some .cmd
  | 0x04 => some .status
  | 0x08 => some .k
  | 0x0C => some .inAddr
  | 0x10 => some .inLen
  | 0x14 => some .outAddr
  | 0x18 => some .outCap
  | 0x1C => some .outLen
  | _ => none

/-- The register a host bus access of `width` bytes at host address `addr` goes to: "one naturally aligned 32-bit read or
write at `REG_BASE + off`" (R71); none for every access R71 refuses (log entry 9). -/
def busRegister (base width addr : Nat) : Option Reg :=
  if width = 4 ∧ base ≤ addr then regAtOffset (addr - base) else none

/-- The host address of a register (R65, R70). -/
def busAddress (base : Nat) (r : Reg) : Nat := base + regOffset r

end Sys2Proof
end

