-- ==== Sys2Proof/Machine/Dispatch.lean ====
section
/-! DEFINITION. CmdWrite (40_command.md R100): one arm per row of opcode_table.json. -/

namespace Sys2Proof.Machine

def exec (i : Instr) (s : State) : Host.Outcome State Fault Refusal :=
  match i with
  | .nop a => Sys2Proof.Machine.execNop a s
  | .encode a => Sys2Proof.Machine.execEncode a s
  | .decode a => Sys2Proof.Machine.execDecode a s
  | .reserved a => Sys2Proof.Machine.execReserved a s

end Sys2Proof.Machine
end

