-- ==== Sys2Proof/Machine/HostBus.lean ====
section
/-! DEFINITION. The host agent: register reads and writes (30_encoding.md R70 to R73), data-memory accesses with the window
hazards (20_memory.md R51, 70_reset_and_hazards.md R185, R186), and the lines of a host program (R80). -/

namespace Sys2Proof.Machine

/-- RegRead: "the register's current value as a 32-bit word"; CMD reads 0 (R70, R72). -/
def regRead (r : Reg) (s : State) : Word :=
  match r with
  | .cmd => 0
  | .status => s.status
  | .k => s.k
  | .inAddr => s.inAddr
  | .inLen => s.inLen
  | .outAddr => s.outAddr
  | .outCap => s.outCap
  | .outLen => s.outLen

/-- RegWrite (R73): an operand register takes the word in every state, busy or not; STATUS and OUT_LEN ignore it; a write
of CMD is the command (R100). -/
def regWrite (r : Reg) (w : Word) (s : State) : Host.Outcome State Fault Refusal :=
  match r with
  | .cmd => exec (decodeCommand w) s
  | .status => .next s
  | .k => .next { s with k := w }
  | .inAddr => .next { s with inAddr := w }
  | .inLen => .next { s with inLen := w }
  | .outAddr => .next { s with outAddr := w }
  | .outCap => .next { s with outCap := w }
  | .outLen => .next s

/-- Does a host read of `a` return any value? While busy, in OUT_WINDOW (R186); and at an address that is not ordinary
memory, of which R58 does not say that a read returns the last byte written (log entry 10). -/
def readsFree (s : State) (a : Word) : Bool := (busy s && windowHas (outWindow s.eng) a) || !memOrdinary s.platform a

/-- HostMemRead(a) into temporary `t`, the byte zero-extended (R51, R80, R185, R186). -/
def hostMemRead (a : Word) (t : Nat) (s : State) : State :=
  if readsFree s a then
    tempWrite t (BitVec.zeroExtend 32 (Config.freeByte s.draws)) (countDraws 1 s)
  else tempWrite t (BitVec.zeroExtend 32 (memRead s.mem a)) s

/-- HostMemWrite(a, v) (R51), refused in a window of the running operation (R185, R186). -/
def hostMemWrite (a : Word) (v : Byte) (s : State) : Host.Outcome State Fault Refusal :=
  if busy s && windowHas (inWindow s.eng) a then .refused .inputWrittenWhileBusy
  else if busy s && windowHas (outWindow s.eng) a then .refused .outputWrittenWhileBusy
  else .next (storeByte a v s)

/-- The effect of a line of a host program (R80), the host standing at the line after it. -/
def hostOp (op : HostOp) (s : State) : Host.Outcome State Fault Refusal :=
  match op with
  | .memWrite a v => hostMemWrite a v s
  | .memRead a t => .next (hostMemRead a t s)
  | .busWrite width addr w =>
    match busRegister s.platform.regBase width addr with
    | none => .refused .regAccessShape
    | some r => regWrite r w s
  | .busRead width addr t =>
    match busRegister s.platform.regBase width addr with
    | none => .refused .regAccessShape
    | some r => .next (tempWrite t (regRead r s) s)
  | .branchNonZero t m label => .next (if tempRead s t &&& m ≠ 0 then hostJump label s else s)

/-- A turn of the host agent: the next line of its program. Once the program has ended the host has no enabled step, and
the turn changes nothing (log entry 2). -/
def hostTurn (s : State) : Host.Outcome State Fault Refusal :=
  match s.host.prog[s.host.pc]? with
  | none => .next s
  | some op => hostOp op (hostAdvance s)

/-- Make `op` the host's next line (in place of the line that stands there; after the last line if the program has
ended) and give the host the next turn (log entry 4). -/
def placeHostOp (op : HostOp) (s : State) : State :=
  { s with
    agenda := .host :: s.agenda
    host :=
      if s.host.pc < s.host.prog.length then { s.host with prog := s.host.prog.set s.host.pc op }
      else { s.host with prog := s.host.prog ++ [op], pc := s.host.prog.length } }

end Sys2Proof.Machine
end

