-- ==== Sys2Proof/Machine/Agents.lean ====
section
/-! DEFINITION. The agents and their turns (00_scope.md R12). -/

namespace Sys2Proof.Machine

/-- The agent that moves when the agenda names none: the engine while it is enabled, else the host (log entry 1). -/
def defaultAgent (s : State) : Agent := if busy s then .engine else .host

/-- A turn of an agent (00_scope.md R12). -/
def agentTurn (a : Agent) (s : State) : Host.Outcome State Fault Refusal :=
  match a with
  | .host => hostTurn s
  | .engine => .next (engineTurn s)
  | .reset => .next (resetStep s)

end Sys2Proof.Machine
end

