-- ==== Sys2Proof/Machine/Step.lean ====
section
/-! DEFINITION. One step of the machine: a turn of the agent that moves next (00_scope.md R12, 20_memory.md R59). -/

namespace Sys2Proof.Machine

/-- The first agent of the agenda takes its turn, and the agenda moves on; with none listed the default agent does. -/
def step (s : State) : Host.Outcome State Fault Refusal :=
  match s.agenda with
  | a :: rest => agentTurn a (setAgenda rest s)
  | [] => agentTurn (defaultAgent s) s

/-- `s` with a 32-bit write of `w` to CMD as the host's next line and the host to move: the block fetches no instructions
(20_memory.md R63), a command is the value written to CMD (log entry 4). Bits of `w` from `nbits` on are 0. -/
def State.withFetchWord (s : State) (nbits w : Nat) : State :=
  placeHostOp (.busWrite 4 (busAddress s.platform.regBase .cmd) (BitVec.ofNat 32 (w % 2 ^ nbits))) s

end Sys2Proof.Machine
end

