-- ==== Sys2Proof/Machine/Transform.lean ====
section
/-! DEFINITION. The transforms as functions on bit sequences: Enc_K (41_encode.md R123), Dec_K and WF_K (42_decode.md R146,
R147), the number of data bits DECODE writes (R151), and the runs of ones the laws speak of (R126). The machine does not
call them: statements compare it with them. -/

namespace Sys2Proof.Machine

/-- `go` of R123; `r` is the run counter. -/
def encGo (k : Nat) (x : List Bool) (r : Nat) : List Bool :=
  match x with
  | [] => []
  | false :: t => false :: encGo k t 0
  | true :: t => if r + 1 = k then true :: false :: encGo k t 0 else true :: encGo k t (r + 1)

/-- Enc_K (R123). -/
def encBits (k : Nat) (x : List Bool) : List Bool := encGo k x 0

/-- The run counter after a bit that is copied to the output (R142). -/
def runAfter (b : Bool) (r : Nat) : Nat := if b then r + 1 else 0

/-- `go` of R147; none is the malformed outcome. -/
def decGo (k : Nat) (y : List Bool) (r : Nat) : Option (List Bool) :=
  match y with
  | [] => if r = k then none else some []
  | b :: t =>
    if r = k then (if b then none else decGo k t 0) else (decGo k t (runAfter b r)).map (fun out => b :: out)

/-- Dec_K (R147). -/
def decBits (k : Nat) (y : List Bool) : Option (List Bool) := decGo k y 0

/-- The scan of R146; `r` is its run counter. -/
def wellFormedGo (k : Nat) (y : List Bool) (r : Nat) : Bool :=
  match y with
  | [] => r != k
  | b :: t => if r = k then (if b then false else wellFormedGo k t 0) else wellFormedGo k t (runAfter b r)

/-- WF_K, well-formed stuffed input (R146). -/
def wellFormedStuffed (k : Nat) (y : List Bool) : Bool := wellFormedGo k y 0

/-- The scan of R151, from run counter `r`: how many data bits are written before it stops. -/
def dataBitsGo (k : Nat) (y : List Bool) (r : Nat) : Nat :=
  match y with
  | [] => 0
  | b :: t => if r = k then (if b then 0 else dataBitsGo k t 0) else dataBitsGo k t (runAfter b r) + 1

/-- P of R151: "the number of data bits the scan of rule R142 writes before it stops when capacity is unbounded". -/
def dataBits (k : Nat) (y : List Bool) : Nat := dataBitsGo k y 0

/-- The lengths of the maximal runs of ones, the first one having `r` ones before `x` begins. -/
def onesRunsGo (x : List Bool) (r : Nat) : List Nat :=
  match x with
  | [] => if r = 0 then [] else [r]
  | true :: t => onesRunsGo t (r + 1)
  | false :: t => if r = 0 then onesRunsGo t 0 else r :: onesRunsGo t 0

/-- The lengths L_1, ..., L_r of the maximal runs of ones in a sequence (R126). -/
def onesRuns (x : List Bool) : List Nat := onesRunsGo x 0

end Sys2Proof.Machine
end

