-- ==== Sys2Proof/Safety.lean ====
section
/-! DEFINITION. What statements are said in: when a start goes ahead, and the invariant of the machine. -/

namespace Sys2Proof.Machine

/-- Two windows have no byte in common (R57). -/
def WindowsDisjoint (v w : Window) : Prop := ∀ a : Word, ¬ (windowHas v a = true ∧ windowHas w a = true)

/-- Every byte of a window is ordinary memory (R58). -/
def AllOrdinary (p : Platform) (w : Window) : Prop := ∀ a : Word, windowHas w a = true → memOrdinary p a = true

/-- The parameter check passes (R103), in the spec's own terms. -/
def ParamsOk (op : Op) (s : State) : Prop :=
  match op with
  | .enc => s.k ≠ 0 ∧ s.inLen.toNat + (s.inLen.toNat + s.k.toNat - 1) / s.k.toNat + 8 ≤ 2 ^ 32 - 1
  | .dec => s.k ≠ 0

/-- The input window a start would latch: ceil(IN_LEN / 8) bytes from IN_ADDR (R55). -/
def operandInWindow (s : State) : Window := { base := s.inAddr, len := (s.inLen.toNat + 7) / 8 }

/-- The output window a start would latch: OUT_CAP bytes from OUT_ADDR (R55). -/
def operandOutWindow (s : State) : Window := { base := s.outAddr, len := s.outCap.toNat }

/-- The host obligations of R184 that a start tests: disjoint windows of ordinary memory. -/
def WindowsOk (s : State) : Prop :=
  WindowsDisjoint (operandInWindow s) (operandOutWindow s) ∧
    AllOrdinary s.platform (operandInWindow s) ∧ AllOrdinary s.platform (operandOutWindow s)

/-- The legal STATUS words (R22, R76, R160): reserved bits 0, never BUSY and DONE together, ERR 0 to 3, and 0 unless
DONE. -/
abbrev StatusLegal (w : Word) : Prop :=
  statusReserved w = 0 ∧ ¬ (statusBusy w = true ∧ statusDone w = true) ∧ (statusErr w).toNat ≤ 3 ∧
    (statusDone w = false → statusErr w = 0)

/-- OUT_LEN is 0 except after a success (R28, R105, R160). -/
abbrev OutLenLegal (s : State) : Prop := s.status ≠ statusSuccess → s.outLen = 0

/-- The cursors of a running ENCODE (R30, R121, R123): the run counter stays below K, each stuff bit written accounts for
K counted ones, and the length check passed. -/
abbrev EncodeCursors (e : Engine) : Prop :=
  e.run.toNat < e.k.toNat ∧ e.i.toNat ≤ e.o.toNat ∧ e.k.toNat * (e.o.toNat - e.i.toNat) + e.run.toNat ≤ e.i.toNat ∧
    e.n.toNat + ceilDiv e.n.toNat e.k.toNat + 8 ≤ Config.lenMax

/-- The cursors of a running DECODE (R30, R141). -/
abbrev DecodeCursors (e : Engine) : Prop := e.run.toNat ≤ e.k.toNat ∧ e.o.toNat ≤ e.i.toNat

/-- The current output byte (R109): it has been written through, and its bits not yet written are 0. -/
abbrev OutputByteCurrent (s : State) : Prop :=
  s.eng.o.toNat % 8 ≠ 0 →
    memRead s.mem (outByteAddress s.eng) = s.eng.acc ∧ s.eng.acc.toNat % 2 ^ (8 - s.eng.o.toNat % 8) = 0

/-- What holds of the engine while an operation runs. -/
abbrev EngineLegal (s : State) : Prop :=
  s.eng.k ≠ 0 ∧ s.eng.i.toNat ≤ s.eng.n.toNat ∧ s.eng.capBits.toNat % 8 = 0 ∧
    s.eng.o.toNat ≤ s.eng.capBits.toNat ∧
    (s.eng.op = .enc → EncodeCursors s.eng) ∧ (s.eng.op = .dec → DecodeCursors s.eng) ∧
    windowsOverlap (inWindow s.eng) (outWindow s.eng) = false ∧
    windowOrdinary s.platform (inWindow s.eng) = true ∧ windowOrdinary s.platform (outWindow s.eng) = true ∧
    OutputByteCurrent s

/-- The invariant of the machine: it holds at reset and every step keeps it. -/
abbrev MachineInv (s : State) : Prop :=
  memoryWf s.mem = true ∧ cellsWf 0 s.host.temps = true ∧ StatusLegal s.status ∧ OutLenLegal s ∧
    (busy s = true → EngineLegal s)

end Sys2Proof.Machine
end

