-- ==== Sys2Proof/Certificates/Slice0/Obligations.lean ====
section
/-! DEFINITION. The statements for the provers. Each docstring names the rule of spec/ it formalises. Where a statement
says what a free byte is, it says so by `Config.freeByte`, which has no value a proof could see, and it holds for every
value of `draws` (log entry 7). -/

open Sys2Proof Sys2Proof.Machine

/-! ## Encoding -/

/-- R74, R75, R79: five command words written out from the encoding, one of them with every ignored bit set, and a 16-bit
access, which is no command. -/
def Obligations.WrittenCommandWordsDecode : Prop :=
  decodeBits 32 0x00000000 = .ok (.nop 0) ∧ decodeBits 32 0x00000001 = .ok (.encode 0) ∧
    decodeBits 32 0x00000002 = .ok (.decode 0) ∧ decodeBits 32 0x00000003 = .ok (.reserved 0) ∧
    decodeBits 32 0xFFFFFFFD = .ok (.encode 0x3FFFFFFF) ∧ decodeBits 16 0x0001 = .error .notOneWord

/-- R74, R79: decoding an encoded command gives it back with every value of field A, and encoding a decoded word gives the
word back: no bit is dropped and no two words share a meaning and a field A. -/
def Obligations.CommandEncodingRoundTrip : Prop :=
  (∀ i : Instr, decodeBits 32 (encode i).toNat = .ok i) ∧ (∀ w : Word, encode (decodeCommand w) = w)

/-- R74: two words with the same OP do the same in every state, whatever their field A. -/
def Obligations.CommandDependsOnOpAlone : Prop :=
  ∀ (v w : Word) (s : State), v.extractLsb' 0 2 = w.extractLsb' 0 2 →
    exec (decodeCommand v) s = exec (decodeCommand w) s

/-- R70, R71: the accesses that reach a register are exactly the 4-byte ones at REG_BASE plus a register's offset. That an
access outside the block's span reaches none is the model's choice (log entry 9). -/
def Obligations.BusReachesExactlyEightRegisters : Prop :=
  ∀ (base width addr : Nat) (r : Reg),
    busRegister base width addr = some r ↔ width = 4 ∧ addr = base + regOffset r

/-! ## Commands -/

/-- R101: a NOP has no effect, idle or busy; a word with w[1:0] = 0b00 is a NOP; right after reset it leaves STATUS 0. -/
def Obligations.NopHasNoEffect : Prop :=
  (∀ (a : BitVec 30) (s : State), exec (.nop a) s = .next s) ∧
    (∀ w : Word, w.extractLsb' 0 2 = 0 → ∃ a, decodeCommand w = .nop a) ∧
    ∃ t : State, exec (.nop 0) State.reset = .next t ∧ t.status = 0x00000000

/-- R100: every command written while BUSY = 1 is ignored. -/
def Obligations.CommandIgnoredWhileBusy : Prop :=
  ∀ (i : Instr) (s : State), busy s = true → exec i s = .next s

/-- R104: the reserved OP completes at once with INVALID_PARAMETER and OUT_LEN = 0 while idle (the STATUS word of the
rule's example), changing nothing else; while busy it is ignored. A word with w[1:0] = 0b11 is that command. -/
def Obligations.ReservedOpReportsInvalidParameter : Prop :=
  ∀ (a : BitVec 30) (s : State),
    (busy s = false → exec (.reserved a) s = .next { s with status := 0x0000000E, outLen := 0 }) ∧
      (busy s = true → exec (.reserved a) s = .next s) ∧
      ∀ w : Word, w.extractLsb' 0 2 = 3 → ∃ b, decodeCommand w = .reserved b

/-- R105 with the tests of R102: an ENCODE command that passes them copies its operands into the engine, clears the
per-operation state, sets STATUS to BUSY alone and OUT_LEN to 0, and changes nothing else. -/
def Obligations.EncodeStartLatchesOperands : Prop :=
  ∀ (a : BitVec 30) (s : State), busy s = false → ParamsOk .enc s → WindowsOk s →
    exec (.encode a) s = .next { s with
      status := 0x00000001
      outLen := 0
      eng := { op := .enc, k := s.k, n := s.inLen, inAddr := s.inAddr, outAddr := s.outAddr,
               capBits := BitVec.ofNat 35 (8 * s.outCap.toNat), i := 0, o := 0, run := 0, acc := 0 } }

/-- R105 with the tests of R102: the same for DECODE. -/
def Obligations.DecodeStartLatchesOperands : Prop :=
  ∀ (a : BitVec 30) (s : State), busy s = false → ParamsOk .dec s → WindowsOk s →
    exec (.decode a) s = .next { s with
      status := 0x00000001
      outLen := 0
      eng := { op := .dec, k := s.k, n := s.inLen, inAddr := s.inAddr, outAddr := s.outAddr,
               capBits := BitVec.ofNat 35 (8 * s.outCap.toNat), i := 0, o := 0, run := 0, acc := 0 } }

/-- R164: InvalidParameter is raised at the CMD write in these three cases, with STATUS = 0xE, OUT_LEN = 0 and nothing
else changed, data memory included. -/
def Obligations.InvalidParameterStartTouchesNothingElse : Prop :=
  ∀ (a : BitVec 30) (s : State), busy s = false →
    (s.k = 0 ∨ 2 ^ 32 - 1 < s.inLen.toNat + (s.inLen.toNat + s.k.toNat - 1) / s.k.toNat + 8 →
      exec (.encode a) s = .next { s with status := 0x0000000E, outLen := 0 }) ∧
    (s.k = 0 → exec (.decode a) s = .next { s with status := 0x0000000E, outLen := 0 }) ∧
    exec (.reserved a) s = .next { s with status := 0x0000000E, outLen := 0 }

/-- R57: a start that passes the parameter check and whose windows share a byte is refused. -/
def Obligations.OverlappingStartIsRefused : Prop :=
  ∀ (a : BitVec 30) (s : State) (x : Word), busy s = false →
    windowHas (operandInWindow s) x = true → windowHas (operandOutWindow s) x = true →
    (ParamsOk .enc s → exec (.encode a) s = .refused .windowOverlap) ∧
      (ParamsOk .dec s → exec (.decode a) s = .refused .windowOverlap)

/-- R58, R102: a start that passes the other tests and has a window byte that is not ordinary memory is refused. -/
def Obligations.NonOrdinaryStartIsRefused : Prop :=
  ∀ (a : BitVec 30) (s : State) (x : Word), busy s = false →
    WindowsDisjoint (operandInWindow s) (operandOutWindow s) →
    (windowHas (operandInWindow s) x = true ∨ windowHas (operandOutWindow s) x = true) →
    memOrdinary s.platform x = false →
    (ParamsOk .enc s → exec (.encode a) s = .refused .notMemory) ∧
      (ParamsOk .dec s → exec (.decode a) s = .refused .notMemory)

/-- The frame of the four commands (R29, R101, R104, R105): none changes an operand register, a byte of memory, the host,
the platform or the agenda, and none draws a free byte; the engine changes only by a start, which leaves BUSY set. -/
def Obligations.CommandFrame : Prop :=
  ∀ (i : Instr) (s t : State), exec i s = .next t →
    t.k = s.k ∧ t.inAddr = s.inAddr ∧ t.inLen = s.inLen ∧ t.outAddr = s.outAddr ∧ t.outCap = s.outCap ∧
      (∀ x : Word, memRead t.mem x = memRead s.mem x) ∧ t.host = s.host ∧ t.platform = s.platform ∧
      t.agenda = s.agenda ∧ t.draws = s.draws ∧ (t.eng ≠ s.eng → busy s = false ∧ busy t = true)

/-- R121, its three bounds on N. -/
def Obligations.EncodeLengthBounds : Prop :=
  ∀ s : State,
    (s.k = 5 → (ParamsOk .enc s ↔ s.inLen.toNat ≤ 3579139405)) ∧
    (s.k = 1 → (ParamsOk .enc s ↔ s.inLen.toNat ≤ 2147483643)) ∧
    (s.k = 0xFFFFFFFF → (ParamsOk .enc s ↔ s.inLen.toNat ≤ 4294967286))

/-! ## Steps and agents -/

/-- R59, R80, R100: where the host moves, a step of the machine is `hostOp` of the line it stands at, whatever the line,
the host standing at its next line; and where that line is a 32-bit write of `w` to CMD, it is `exec` of the command `w`
decodes to. That an idle machine with no agent named lets the host move is the model's choice (log entry 1). -/
def Obligations.StepRunsDecodedCommand : Prop :=
  (∀ (s : State) (rest : List Agent) (op : HostOp), s.host.prog[s.host.pc]? = some op →
    (s.agenda = .host :: rest →
      step s = hostOp op { s with agenda := rest, host := { s.host with pc := s.host.pc + 1 } }) ∧
    (s.agenda = [] → busy s = false →
      step s = hostOp op { s with host := { s.host with pc := s.host.pc + 1 } })) ∧
  (∀ (s : State) (rest : List Agent) (w : Word) (i : Instr),
    s.host.prog[s.host.pc]? = some (.busWrite 4 (s.platform.regBase + regOffset .cmd) w) →
    decodeBits 32 w.toNat = .ok i →
    (s.agenda = .host :: rest →
      step s = exec i { s with agenda := rest, host := { s.host with pc := s.host.pc + 1 } }) ∧
    (s.agenda = [] → busy s = false →
      step s = exec i { s with host := { s.host with pc := s.host.pc + 1 } }))

/-- R107, R12: on the engine's turn the engine takes one step if BUSY = 1 and nothing but the agenda changes otherwise;
with no agent named, a busy machine takes an engine step (the model's choices, log entries 1 and 2). -/
def Obligations.EngineStepsExactlyWhileBusy : Prop :=
  ∀ (s : State) (rest : List Agent),
    (s.agenda = .engine :: rest → busy s = true → step s = .next (engineStep { s with agenda := rest })) ∧
    (s.agenda = .engine :: rest → busy s = false → step s = .next { s with agenda := rest }) ∧
    (s.agenda = [] → busy s = true → step s = .next (engineStep s))

/-- R107, R59: `m` steps on `m` turns of the engine are the engine's `m` turns. -/
def Obligations.EngineTurnsAreMachineSteps : Prop :=
  ∀ (m : Nat) (s : State) (rest : List Agent), s.agenda = List.replicate m .engine ++ rest →
    Host.Core.run Sys2Proof.core m s = .next (engineRun m { s with agenda := rest })

/-- R180: an idle block with no agent named and a host whose program has ended does nothing. That the host moves
when no agent is named (log entry 1), and that its turn after the end of its program changes nothing (log entry 2), are
the model's choices. -/
def Obligations.IdleMachineRests : Prop :=
  ∀ s : State, s.agenda = [] → busy s = false → s.host.prog.length ≤ s.host.pc → step s = .next s

/-! ## The engine -/

/-- R108: at the end of the input (with no malformed ending) the step sets OUT_LEN to eng.o and STATUS to DONE alone, and
changes nothing else: every data-memory write was made earlier. -/
def Obligations.CompletionStepReportsLength : Prop :=
  ∀ s : State, busy s = true → s.eng.i = s.eng.n → (s.eng.op = .dec → s.eng.run ≠ s.eng.k) →
    engineStep s = { s with outLen := s.eng.o, status := 0x00000002 }

/-- R124, with R122 and R109: an ENCODE step with room for its data bit copies input bit eng.i to output bit eng.o; after
the K-th consecutive one it also writes a stuff `0`; the counter and the cursors move as the rule says; the output bits
written before stay; the operation goes on and no register changes. Only a stuff bit without room ends it (R161). -/
def Obligations.EncodeStepCopiesAndStuffs : Prop :=
  ∀ s : State, MachineInv s → busy s = true → s.eng.op = .enc → s.eng.i ≠ s.eng.n →
    s.eng.o.toNat < s.eng.capBits.toNat →
    let b := seqBit s.mem s.eng.inAddr s.eng.i.toNat
    let stuffs := b = true ∧ s.eng.run.toNat + 1 = s.eng.k.toNat
    let t := engineStep s
    (stuffs → s.eng.o.toNat + 1 = s.eng.capBits.toNat → t.status = 0x00000006 ∧ t.outLen = 0) ∧
    ((stuffs → s.eng.o.toNat + 2 ≤ s.eng.capBits.toNat) →
      t.eng.i.toNat = s.eng.i.toNat + 1 ∧
      seqBit t.mem s.eng.outAddr s.eng.o.toNat = b ∧
      (∀ j < s.eng.o.toNat, seqBit t.mem s.eng.outAddr j = seqBit s.mem s.eng.outAddr j) ∧
      (b = false → t.eng.run = 0 ∧ t.eng.o.toNat = s.eng.o.toNat + 1) ∧
      (b = true → s.eng.run.toNat + 1 ≠ s.eng.k.toNat →
        t.eng.run.toNat = s.eng.run.toNat + 1 ∧ t.eng.o.toNat = s.eng.o.toNat + 1) ∧
      (stuffs → t.eng.run = 0 ∧ t.eng.o.toNat = s.eng.o.toNat + 2 ∧
        seqBit t.mem s.eng.outAddr (s.eng.o.toNat + 1) = false) ∧
      t = { s with mem := t.mem, eng := { s.eng with i := t.eng.i, o := t.eng.o, run := t.eng.run, acc := t.eng.acc } })

/-- R142, R143, R144: a DECODE step before the end of the input. In the stuff position a `0` is consumed without being
written and a `1` is MalformedStuffedInput; elsewhere, with room for it, the bit is copied and counted. -/
def Obligations.DecodeStepDropsStuffBits : Prop :=
  ∀ s : State, MachineInv s → busy s = true → s.eng.op = .dec → s.eng.i ≠ s.eng.n →
    let b := seqBit s.mem s.eng.inAddr s.eng.i.toNat
    let t := engineStep s
    (s.eng.run = s.eng.k → b = true →
      t = raiseError .malformedStuffedInput s ∧ t.status = 0x0000000A ∧ t.outLen = 0) ∧
    (s.eng.run = s.eng.k → b = false →
      t = { s with eng := { s.eng with i := t.eng.i, run := 0 } } ∧ t.eng.i.toNat = s.eng.i.toNat + 1) ∧
    (s.eng.run ≠ s.eng.k → s.eng.o.toNat < s.eng.capBits.toNat →
      t = { s with mem := t.mem
                   eng := { s.eng with i := t.eng.i, o := t.eng.o, run := t.eng.run, acc := t.eng.acc } } ∧
        t.eng.i.toNat = s.eng.i.toNat + 1 ∧ t.eng.o.toNat = s.eng.o.toNat + 1 ∧
        t.eng.run.toNat = (if b then s.eng.run.toNat + 1 else 0) ∧
        seqBit t.mem s.eng.outAddr s.eng.o.toNat = b ∧
        ∀ j < s.eng.o.toNat, seqBit t.mem s.eng.outAddr j = seqBit s.mem s.eng.outAddr j)

/-- R161: with the capacity used up, the step that would write a data bit reports CAPACITY_EXCEEDED instead. -/
def Obligations.FullOutputRaisesCapacityExceeded : Prop :=
  ∀ s : State, busy s = true → s.eng.i ≠ s.eng.n → s.eng.capBits.toNat ≤ s.eng.o.toNat →
    (s.eng.op = .dec → s.eng.run ≠ s.eng.k) →
    engineStep s = raiseError .capacityExceeded s

/-- R145: a DECODE whose input ends right after K counted ones reports MALFORMED_STUFFED_INPUT. -/
def Obligations.EndAfterCountedOnesIsMalformed : Prop :=
  ∀ s : State, busy s = true → s.eng.op = .dec → s.eng.i = s.eng.n → s.eng.run = s.eng.k →
    engineStep s = raiseError .malformedStuffedInput s

/-- R163: what raising an error in an engine step does. BUSY 0, DONE 1, ERR the error's code, OUT_LEN 0; each byte of the
output window is a fresh free byte; every byte outside it and every operand register is unchanged. -/
def Obligations.ErrorEntryEffects : Prop :=
  ∀ (e : ErrorKind) (s : State), memoryWf s.mem = true →
    let t := raiseError e s
    statusBusy t.status = false ∧ statusDone t.status = true ∧ statusErr t.status = errCode e ∧
      statusReserved t.status = 0 ∧ t.outLen = 0 ∧
      (∀ b < s.eng.capBits.toNat / 8,
        memRead t.mem (s.eng.outAddr + BitVec.ofNat 32 b) = Config.freeByte (s.draws + b)) ∧
      (∀ x : Word, windowHas (outWindow s.eng) x = false → memRead t.mem x = memRead s.mem x) ∧
      t.k = s.k ∧ t.inAddr = s.inAddr ∧ t.inLen = s.inLen ∧ t.outAddr = s.outAddr ∧ t.outCap = s.outCap ∧
      t.host = s.host ∧ t.platform = s.platform

/-- R56: a step of a running operation changes no byte outside OUT_WINDOW, so none of IN_WINDOW. -/
def Obligations.EngineWritesOnlyOutputWindow : Prop :=
  ∀ (s : State) (x : Word), MachineInv s → busy s = true →
    (windowHas (outWindow s.eng) x = false → memRead (engineStep s).mem x = memRead s.mem x) ∧
    (windowHas (inWindow s.eng) x = true → memRead (engineStep s).mem x = memRead s.mem x)

/-- R54, R56: an engine step sees nothing of memory but the input bits below eng.n. Two states that differ in memory alone
and agree on those bits take steps that agree on everything but memory; and at each address either both steps leave
memory alone or both leave the same byte there. -/
def Obligations.EngineReadsOnlyInputBits : Prop :=
  ∀ (s : State) (m : Memory), memoryWf s.mem = true → memoryWf m = true → s.eng.i.toNat ≤ s.eng.n.toNat →
    (∀ j < s.eng.n.toNat, seqBit m s.eng.inAddr j = seqBit s.mem s.eng.inAddr j) →
    (∀ m' : Memory, { engineStep { s with mem := m } with mem := m' } = { engineStep s with mem := m' }) ∧
    (∀ x : Word,
      memRead (engineStep { s with mem := m }).mem x = memRead (engineStep s).mem x ∨
        (memRead (engineStep { s with mem := m }).mem x = memRead m x ∧
          memRead (engineStep s).mem x = memRead s.mem x))

/-- R29, R106: the engine changes no operand register, nothing of the host's and no platform parameter. -/
def Obligations.EngineKeepsOperandRegisters : Prop :=
  ∀ s : State, (engineTurn s).k = s.k ∧ (engineTurn s).inAddr = s.inAddr ∧ (engineTurn s).inLen = s.inLen ∧
    (engineTurn s).outAddr = s.outAddr ∧ (engineTurn s).outCap = s.outCap ∧ (engineTurn s).host = s.host ∧
    (engineTurn s).platform = s.platform ∧ (engineTurn s).agenda = s.agenda

/-- R33: an engine turn leaves STATUS and OUT_LEN as they are unless it ends the operation; then BUSY is 0, DONE is 1 and
ERR is 0, 1 or 2. -/
def Obligations.EngineWritesStatusOnlyAtCompletion : Prop :=
  ∀ s : State,
    ((engineTurn s).status = s.status ∧ (engineTurn s).outLen = s.outLen) ∨
      (busy s = true ∧ ((engineTurn s).status = 0x2 ∨ (engineTurn s).status = 0x6 ∨ (engineTurn s).status = 0xA))

/-- R160, R162: ENCODE never raises MalformedStuffedInput, and no engine step of either operation reports
INVALID_PARAMETER. -/
def Obligations.EncodeNeverMalformed : Prop :=
  ∀ s : State, busy s = true →
    (s.eng.op = .enc → (engineStep s).status ≠ s.status →
      (engineStep s).status = 0x2 ∨ (engineStep s).status = 0x6) ∧
    ((engineStep s).status ≠ s.status → (engineStep s).status ≠ 0xE)

/-! ## The host -/

/-- R72 with the map of R70: a register read gives the register's value (CMD reads 0, and the reserved bits of a legal
STATUS read 0) to the host and changes no other state. -/
def Obligations.RegisterReadGivesValue : Prop :=
  ∀ (s : State) (r : Reg) (t : Nat), cellsWf 0 s.host.temps = true →
    ∃ u : State, hostOp (.busRead 4 (s.platform.regBase + regOffset r) t) s = .next u ∧
      u = { s with host := { s.host with temps := u.host.temps } } ∧
      (∀ v, v ≠ t → tempRead u v = tempRead s v) ∧
      tempRead u t = (match r with
        | .cmd => 0 | .status => s.status | .k => s.k | .inAddr => s.inAddr | .inLen => s.inLen
        | .outAddr => s.outAddr | .outCap => s.outCap | .outLen => s.outLen) ∧
      (r = .status → StatusLegal s.status → (tempRead u t).extractLsb' 5 27 = 0)

/-- R73: a write of an operand register stores the word, busy or not; a write of STATUS or OUT_LEN has no effect; a write of
CMD is the command. -/
def Obligations.RegisterWriteEffects : Prop :=
  ∀ (s : State) (w : Word),
    let wr := fun r => hostOp (.busWrite 4 (s.platform.regBase + regOffset r) w) s
    wr .k = .next { s with k := w } ∧ wr .inAddr = .next { s with inAddr := w } ∧
      wr .inLen = .next { s with inLen := w } ∧ wr .outAddr = .next { s with outAddr := w } ∧
      wr .outCap = .next { s with outCap := w } ∧ wr .status = .next s ∧ wr .outLen = .next s ∧
      wr .cmd = exec (decodeCommand w) s

/-- R71: every register access of another shape is refused, read or write. That an access outside the block's span is
refused too is the model's choice (log entry 9). -/
def Obligations.OtherAccessShapesAreRefused : Prop :=
  ∀ (s : State) (width addr : Nat) (w : Word) (t : Nat),
    (∀ r : Reg, ¬ (width = 4 ∧ addr = s.platform.regBase + regOffset r)) →
    hostOp (.busWrite width addr w) s = .refused .regAccessShape ∧
      hostOp (.busRead width addr t) s = .refused .regAccessShape

/-- R106: a write of an operand register while busy and an engine step can change places: the running operation uses the
operands latched at its start, and the register keeps the new value. -/
def Obligations.OperandWritesDoNotReachRunningOperation : Prop :=
  ∀ (s : State) (w : Word), busy s = true →
    engineStep { s with k := w } = { engineStep s with k := w } ∧
      engineStep { s with inAddr := w } = { engineStep s with inAddr := w } ∧
      engineStep { s with inLen := w } = { engineStep s with inLen := w } ∧
      engineStep { s with outAddr := w } = { engineStep s with outAddr := w } ∧
      engineStep { s with outCap := w } = { engineStep s with outCap := w }

/-- R185: while busy, a host write to the input window is refused, and a host read of it returns the memory byte, which
the engine does not change. That the temporary holds the byte zero-extended to 32 bits is the model's choice (log
entry 3). -/
def Obligations.InputWindowHazard : Prop :=
  ∀ (s : State) (x : Word) (v : Byte) (t : Nat), MachineInv s → busy s = true →
    windowHas (inWindow s.eng) x = true →
    hostOp (.memWrite x v) s = .refused .inputWrittenWhileBusy ∧
      ∃ u : State, hostOp (.memRead x t) s = .next u ∧
        u = { s with host := { s.host with temps := u.host.temps } } ∧
        (∀ n, n ≠ t → tempRead u n = tempRead s n) ∧
        tempRead u t = BitVec.zeroExtend 32 (memRead s.mem x) ∧
        memRead (engineStep s).mem x = memRead s.mem x

/-- R186: while busy, a host write to the output window is refused, and a host read of it returns a free byte and
changes nothing else, the other temporaries included. That the temporary holds it zero-extended to 32 bits is the model's
choice (log entry 3). -/
def Obligations.OutputWindowHazard : Prop :=
  ∀ (s : State) (x : Word) (v : Byte) (t : Nat), MachineInv s → busy s = true →
    windowHas (outWindow s.eng) x = true →
    hostOp (.memWrite x v) s = .refused .outputWrittenWhileBusy ∧
      ∃ u : State, hostOp (.memRead x t) s = .next u ∧
        u = { s with host := { s.host with temps := u.host.temps }, draws := s.draws + 1 } ∧
        (∀ n, n ≠ t → tempRead u n = tempRead s n) ∧
        tempRead u t = BitVec.zeroExtend 32 (Config.freeByte s.draws)

/-- R51, R58, R186: a host access to memory outside the windows of a running operation, and every one while idle. A write
stores its byte and no other (at an address that is not ordinary memory: the model's choice, log entry 10); a read of
ordinary memory returns the byte, zero-extended into a 32-bit temporary (the model's choice, log entry 3). -/
def Obligations.HostMemoryAccessOutsideWindows : Prop :=
  ∀ (s : State) (x : Word) (v : Byte) (t : Nat), MachineInv s →
    (busy s = true → windowHas (inWindow s.eng) x = false ∧ windowHas (outWindow s.eng) x = false) →
    (∃ u : State, hostOp (.memWrite x v) s = .next u ∧ u = { s with mem := u.mem } ∧ memRead u.mem x = v ∧
      ∀ y : Word, y ≠ x → memRead u.mem y = memRead s.mem y) ∧
    (memOrdinary s.platform x = true → ∃ u : State, hostOp (.memRead x t) s = .next u ∧
      u = { s with host := { s.host with temps := u.host.temps } } ∧
      (∀ n, n ≠ t → tempRead u n = tempRead s n) ∧
      tempRead u t = BitVec.zeroExtend 32 (memRead s.mem x))

/-- R80: BNZ continues at its label exactly if the masked temporary is not 0, and touches nothing of the block. -/
def Obligations.BranchFollowsMaskedTemporary : Prop :=
  ∀ (s : State) (t label : Nat) (m : Word),
    (tempRead s t &&& m ≠ 0 →
      hostOp (.branchNonZero t m label) s = .next { s with host := { s.host with pc := label } }) ∧
    (tempRead s t &&& m = 0 → hostOp (.branchNonZero t m label) s = .next s)

/-- R100, R106, R185, R186: no turn of the host disturbs a running operation: the engine, STATUS, OUT_LEN and every byte of
both windows stay as they are. -/
def Obligations.HostCannotDisturbRunningOperation : Prop :=
  ∀ s t : State, busy s = true → hostTurn s = .next t →
    t.eng = s.eng ∧ t.status = s.status ∧ t.outLen = s.outLen ∧ t.platform = s.platform ∧
      ∀ x : Word, windowHas (inWindow s.eng) x = true ∨ windowHas (outWindow s.eng) x = true →
        memRead t.mem x = memRead s.mem x

/-- While idle, DONE, ERR and OUT_LEN keep their values over every host line but a CMD write whose OP is not NOP (R188,
R101). A turn of the engine, which has no enabled step then (R107), changes nothing: the model's choice (log entry 2). -/
def Obligations.ResultKeptUntilNextStart : Prop :=
  ∀ s : State, busy s = false →
    engineTurn s = s ∧
      ∀ (op : HostOp) (t : State), hostOp op s = .next t →
        (∀ w : Word, op = .busWrite 4 (s.platform.regBase + regOffset .cmd) w → w.extractLsb' 0 2 = 0) →
        t.status = s.status ∧ t.outLen = s.outLen

/-! ## Reset -/

/-- R34: what the eight registers read right after reset. -/
def Obligations.RegistersAfterReset : Prop :=
  regRead .cmd State.reset = 0 ∧ regRead .status State.reset = 0 ∧ regRead .k State.reset = 5 ∧
    regRead .inAddr State.reset = 0 ∧ regRead .inLen State.reset = 0 ∧ regRead .outAddr State.reset = 0 ∧
    regRead .outCap State.reset = 0 ∧ regRead .outLen State.reset = 0

/-- R180: on the reset agent's turn, in any state, a step is the reset step; it sets every register to its reset value and
leaves the engine idle. What it does to data memory is `ResetMemoryEffects`. That a turn of the idle engine changes nothing
(log entry 2), and that reset leaves the host's own state as it is (log entry 3), are the model's choices. -/
def Obligations.ResetStepSetsRegisters : Prop :=
  ∀ (s : State) (rest : List Agent), s.agenda = .reset :: rest →
    let t := resetStep { s with agenda := rest }
    step s = .next t ∧ t.status = 0 ∧ t.k = 5 ∧ t.inAddr = 0 ∧ t.inLen = 0 ∧ t.outAddr = 0 ∧
      t.outCap = 0 ∧ t.outLen = 0 ∧ busy t = false ∧ engineTurn t = t ∧ t.agenda = rest ∧ t.host = s.host ∧
      t.platform = s.platform

/-- R181, R182: reset of an idle block leaves memory as it is; reset during an operation reports nothing in STATUS, gives
each byte of its output window a free byte and leaves its input window and all other memory unchanged. -/
def Obligations.ResetMemoryEffects : Prop :=
  ∀ s : State, MachineInv s →
    (busy s = false → (resetStep s).mem = s.mem) ∧
    (busy s = true →
      (resetStep s).status = 0 ∧
      (∀ b < s.eng.capBits.toNat / 8,
        memRead (resetStep s).mem (s.eng.outAddr + BitVec.ofNat 32 b) = Config.freeByte (s.draws + b)) ∧
      (∀ x : Word, windowHas (inWindow s.eng) x = true → memRead (resetStep s).mem x = memRead s.mem x) ∧
      (∀ x : Word, windowHas (outWindow s.eng) x = false → memRead (resetStep s).mem x = memRead s.mem x))

/-! ## The invariant -/

/-- The invariant holds right after reset, with the model's choices for memory, host, platform, agenda and draws (log
entries 1, 3, 5, 7, 8, 9). -/
def Obligations.ResetMeetsInvariant : Prop := MachineInv State.reset

/-- Every step of every agent keeps the invariant: memory and temporaries in canonical form, STATUS a legal word (R22),
OUT_LEN 0 but after a success (R28), and while busy the engine's cursors in their bounds (R30, R121, R141), its windows
disjoint ordinary memory (R57, R58) and its current byte written through (R109). -/
def Obligations.StepKeepsInvariant : Prop :=
  ∀ s t : State, MachineInv s → step s = .next t → MachineInv t

/-- R190: an operation in progress ends within IN_LEN + 1 turns of the engine, counted from its start. -/
def Obligations.OperationEndsWithinBound : Prop :=
  ∀ s : State, MachineInv s → busy s = true →
    busy (engineRun (s.eng.n.toNat - s.eng.i.toNat + 1) s) = false

/-! ## The transforms as functions -/

/-- R148: decoding an encoded sequence gives it back, for every K ≥ 1. -/
def Obligations.UnstuffingInvertsStuffing : Prop :=
  ∀ (k : Nat) (x : List Bool), 1 ≤ k → decBits k (encBits k x) = some x

/-- R150: the well-formed sequences are exactly the encoded ones, encoding a decoded one gives it back, and decoding
an encoded one does, so the two are inverse bijections. -/
def Obligations.WellFormedIsExactlyStuffed : Prop :=
  ∀ (k : Nat) (y : List Bool), 1 ≤ k →
    (wellFormedStuffed k y = true ↔ ∃ x, y = encBits k x) ∧
      (wellFormedStuffed k y = true → ∃ x, decBits k y = some x ∧ encBits k x = y) ∧
      (∀ x, y = encBits k x → decBits k y = some x)

/-- R147, R151: Dec_K is defined exactly on well-formed input, and there its length is the number of data bits. -/
def Obligations.DecodesExactlyWellFormed : Prop :=
  ∀ (k : Nat) (y : List Bool),
    ((decBits k y).isSome = wellFormedStuffed k y) ∧
      (∀ x, decBits k y = some x → x.length = dataBits k y) ∧ dataBits k y ≤ y.length

/-- R126: the output length; and each maximal run of L ones, one that a `0` or the end of the sequence bounds on either
side, is encoded by itself, with floor(L / K) stuff bits. -/
def Obligations.StuffedLengthLaw : Prop :=
  ∀ (k : Nat) (x : List Bool), 1 ≤ k →
    (encBits k x).length = x.length + ((onesRuns x).map (fun l => l / k)).sum ∧
    ∀ (l : Nat) (before after : List Bool), x = before ++ List.replicate l true ++ after →
      (before = [] ∨ ∃ u, before = u ++ [false]) → (after = [] ∨ ∃ u, after = false :: u) →
      encBits k x = encBits k before ++ encBits k (List.replicate l true) ++ encBits k after ∧
        (encBits k (List.replicate l true)).length = l + l / k

/-- R127: the all-ones input is the worst case. -/
def Obligations.AllOnesIsWorstCase : Prop :=
  ∀ (k n : Nat), 1 ≤ k →
    (encBits k (List.replicate n true)).length = n + n / k ∧
      ∀ x : List Bool, x.length = n → (encBits k x).length ≤ n + n / k

/-- R128: a stuffed sequence has no run of more than K ones, does not end in a run of K ones, and is well formed. -/
def Obligations.StuffedRunsAreBounded : Prop :=
  ∀ (k : Nat) (x : List Bool), 1 ≤ k →
    (∀ l ∈ onesRuns (encBits k x), l ≤ k) ∧
      (¬ ∃ z, encBits k x = z ++ List.replicate k true) ∧ wellFormedStuffed k (encBits k x) = true

/-- R149: a sequence whose runs of ones are all shorter than K decodes to itself, and so does the empty one. -/
def Obligations.UnstuffedInputIsUnchanged : Prop :=
  ∀ (k : Nat) (y : List Bool), 1 ≤ k → (∀ l ∈ onesRuns y, l < k) →
    decBits k y = some y ∧ decBits k [] = some []

/-! ## Whole operations -/

/-- R129: an ENCODE that starts has completed after N + 1 turns of the engine, with CAPACITY_EXCEEDED exactly when Enc_K(x) is
longer than the capacity, and with OUT_LEN the length of Enc_K(x) on success and 0 on error. -/
def Obligations.EncodeRunEndsAsCapacityAllows : Prop :=
  ∀ (a : BitVec 30) (s : State), memoryWf s.mem = true → busy s = false → ParamsOk .enc s → WindowsOk s →
    ∃ s₁ : State, exec (.encode a) s = .next s₁ ∧
      let y := encBits s.k.toNat (seqBits s.mem s.inAddr s.inLen.toNat)
      let t := engineRun (s.inLen.toNat + 1) s₁
      (8 * s.outCap.toNat < y.length → t.status = 0x6 ∧ t.outLen = 0) ∧
      (y.length ≤ 8 * s.outCap.toNat → t.status = 0x2 ∧ t.outLen.toNat = y.length ∧
        ∀ m ≤ s.inLen.toNat, busy (engineRun m s₁) = true)

/-- R120, R123, R111: what a successful ENCODE leaves in memory. The first OUT_LEN output bits are Enc_K(x), the rest of the
last touched byte is 0, and every other byte of memory is as it was before the start. -/
def Obligations.EncodeRunWritesStuffedSequence : Prop :=
  ∀ (a : BitVec 30) (s : State), memoryWf s.mem = true → busy s = false → ParamsOk .enc s → WindowsOk s →
    (encBits s.k.toNat (seqBits s.mem s.inAddr s.inLen.toNat)).length ≤ 8 * s.outCap.toNat →
    ∃ s₁ : State, exec (.encode a) s = .next s₁ ∧
      let y := encBits s.k.toNat (seqBits s.mem s.inAddr s.inLen.toNat)
      let t := engineRun (s.inLen.toNat + 1) s₁
      let touched := (y.length + 7) / 8
      seqBits t.mem s.outAddr y.length = y ∧
        (∀ j, y.length ≤ j → j < 8 * touched → seqBit t.mem s.outAddr j = false) ∧
        (∀ x : Word, windowHas { base := s.outAddr, len := touched } x = false →
          memRead t.mem x = memRead s.mem x)

/-- R151: how a DECODE that starts ends, after M + 1 turns of the engine; P is |Dec_K(y)| where that is defined, and never
more than M. -/
def Obligations.DecodeRunEndsAsInputAndCapacityAllow : Prop :=
  ∀ (a : BitVec 30) (s : State), memoryWf s.mem = true → busy s = false → ParamsOk .dec s → WindowsOk s →
    ∃ s₁ : State, exec (.decode a) s = .next s₁ ∧
      let y := seqBits s.mem s.inAddr s.inLen.toNat
      let p := dataBits s.k.toNat y
      let t := engineRun (s.inLen.toNat + 1) s₁
      (8 * s.outCap.toNat < p → t.status = 0x6 ∧ t.outLen = 0) ∧
      (p ≤ 8 * s.outCap.toNat → wellFormedStuffed s.k.toNat y = false → t.status = 0xA ∧ t.outLen = 0) ∧
      (p ≤ 8 * s.outCap.toNat → wellFormedStuffed s.k.toNat y = true → t.status = 0x2 ∧ t.outLen.toNat = p ∧
        ∀ m ≤ s.inLen.toNat, busy (engineRun m s₁) = true) ∧
      (∀ x, decBits s.k.toNat y = some x → p = x.length) ∧ p ≤ s.inLen.toNat

/-- R140, R147, R111: what a successful DECODE leaves in memory: Dec_K(y), zero padding, and nothing else changed. -/
def Obligations.DecodeRunWritesOriginalSequence : Prop :=
  ∀ (a : BitVec 30) (s : State) (x : List Bool), memoryWf s.mem = true → busy s = false → ParamsOk .dec s →
    WindowsOk s → decBits s.k.toNat (seqBits s.mem s.inAddr s.inLen.toNat) = some x →
    x.length ≤ 8 * s.outCap.toNat →
    ∃ s₁ : State, exec (.decode a) s = .next s₁ ∧
      let t := engineRun (s.inLen.toNat + 1) s₁
      let touched := (x.length + 7) / 8
      t.outLen.toNat = x.length ∧ seqBits t.mem s.outAddr x.length = x ∧
        (∀ j, x.length ≤ j → j < 8 * touched → seqBit t.mem s.outAddr j = false) ∧
        (∀ z : Word, windowHas { base := s.outAddr, len := touched } z = false →
          memRead t.mem z = memRead s.mem z)

/-- R148 on the machine: an ENCODE with room for its result, then a DECODE of that result with the same K into a buffer with
room for it, restores the input bit for bit and its length. `t` is the machine after the ENCODE and `u` the machine the
host has set up from it for the DECODE. -/
def Obligations.EncodeThenDecodeRestoresInput : Prop :=
  ∀ (a b : BitVec 30) (s s₁ : State) (out cap : Word),
    memoryWf s.mem = true → busy s = false → ParamsOk .enc s → WindowsOk s →
    (encBits s.k.toNat (seqBits s.mem s.inAddr s.inLen.toNat)).length ≤ 8 * s.outCap.toNat →
    exec (.encode a) s = .next s₁ →
    let t := engineRun (s.inLen.toNat + 1) s₁
    let u := { t with inAddr := s.outAddr, inLen := t.outLen, outAddr := out, outCap := cap }
    WindowsOk u → s.inLen.toNat ≤ 8 * cap.toNat →
    ∃ u₁ : State, exec (.decode b) u = .next u₁ ∧
      let v := engineRun (u.inLen.toNat + 1) u₁
      v.status = 0x2 ∧ v.outLen = s.inLen ∧
        seqBits v.mem out s.inLen.toNat = seqBits s.mem s.inAddr s.inLen.toNat

/-- R127, R140, R184: with the capacity the spec asks the host for, no operation ends in CAPACITY_EXCEEDED. -/
def Obligations.AmpleCapacityNeverExceeded : Prop :=
  ∀ (a : BitVec 30) (s : State), memoryWf s.mem = true → busy s = false → WindowsOk s →
    (ParamsOk .enc s → (s.inLen.toNat + s.inLen.toNat / s.k.toNat + 7) / 8 ≤ s.outCap.toNat →
      ∃ s₁ : State, exec (.encode a) s = .next s₁ ∧ (engineRun (s.inLen.toNat + 1) s₁).status = 0x2) ∧
    (ParamsOk .dec s → (s.inLen.toNat + 7) / 8 ≤ s.outCap.toNat →
      ∃ s₁ : State, exec (.decode a) s = .next s₁ ∧ (engineRun (s.inLen.toNat + 1) s₁).status ≠ 0x6)

/-- R112: the outcome of an operation is a function of its operands and its input bits: two starts of the same command that
agree on them, in states that may differ in everything else, end with the same STATUS and OUT_LEN and, on success, the
same output bits. -/
def Obligations.OutcomeDependsOnOperandsAndInput : Prop :=
  ∀ (i : Instr) (s s' s₁ s₁' : State), memoryWf s.mem = true → memoryWf s'.mem = true →
    busy s = false → busy s' = false →
    s.k = s'.k → s.inAddr = s'.inAddr → s.inLen = s'.inLen → s.outAddr = s'.outAddr → s.outCap = s'.outCap →
    seqBits s.mem s.inAddr s.inLen.toNat = seqBits s'.mem s.inAddr s.inLen.toNat →
    exec i s = .next s₁ → exec i s' = .next s₁' → busy s₁ = true →
    let t := engineRun (s.inLen.toNat + 1) s₁
    let t' := engineRun (s.inLen.toNat + 1) s₁'
    t.status = t'.status ∧ t.outLen = t'.outLen ∧
      (t.status = 0x2 → seqBits t.mem s.outAddr t.outLen.toNat = seqBits t'.mem s.outAddr t.outLen.toNat)
end

