-- ==== Sys2Proof/Laws/State.lean ====
section
/-! SUPPORT. One lemma per field of State per named update, so that no proof unfolds a record update. -/

namespace Sys2Proof.Machine

variable (s : State)

/-! ## setResult -/

@[simp] theorem setResult_status (status len : Word) : (setResult status len s).status = status := rfl
@[simp] theorem setResult_k (status len : Word) : (setResult status len s).k = s.k := rfl
@[simp] theorem setResult_inAddr (status len : Word) : (setResult status len s).inAddr = s.inAddr := rfl
@[simp] theorem setResult_inLen (status len : Word) : (setResult status len s).inLen = s.inLen := rfl
@[simp] theorem setResult_outAddr (status len : Word) : (setResult status len s).outAddr = s.outAddr := rfl
@[simp] theorem setResult_outCap (status len : Word) : (setResult status len s).outCap = s.outCap := rfl
@[simp] theorem setResult_outLen (status len : Word) : (setResult status len s).outLen = len := rfl
@[simp] theorem setResult_eng (status len : Word) : (setResult status len s).eng = s.eng := rfl
@[simp] theorem setResult_mem (status len : Word) : (setResult status len s).mem = s.mem := rfl
@[simp] theorem setResult_host (status len : Word) : (setResult status len s).host = s.host := rfl
@[simp] theorem setResult_platform (status len : Word) : (setResult status len s).platform = s.platform := rfl
@[simp] theorem setResult_agenda (status len : Word) : (setResult status len s).agenda = s.agenda := rfl
@[simp] theorem setResult_draws (status len : Word) : (setResult status len s).draws = s.draws := rfl

/-! ## setEngine -/

@[simp] theorem setEngine_status (e : Engine) : (setEngine e s).status = s.status := rfl
@[simp] theorem setEngine_k (e : Engine) : (setEngine e s).k = s.k := rfl
@[simp] theorem setEngine_inAddr (e : Engine) : (setEngine e s).inAddr = s.inAddr := rfl
@[simp] theorem setEngine_inLen (e : Engine) : (setEngine e s).inLen = s.inLen := rfl
@[simp] theorem setEngine_outAddr (e : Engine) : (setEngine e s).outAddr = s.outAddr := rfl
@[simp] theorem setEngine_outCap (e : Engine) : (setEngine e s).outCap = s.outCap := rfl
@[simp] theorem setEngine_outLen (e : Engine) : (setEngine e s).outLen = s.outLen := rfl
@[simp] theorem setEngine_eng (e : Engine) : (setEngine e s).eng = e := rfl
@[simp] theorem setEngine_mem (e : Engine) : (setEngine e s).mem = s.mem := rfl
@[simp] theorem setEngine_host (e : Engine) : (setEngine e s).host = s.host := rfl
@[simp] theorem setEngine_platform (e : Engine) : (setEngine e s).platform = s.platform := rfl
@[simp] theorem setEngine_agenda (e : Engine) : (setEngine e s).agenda = s.agenda := rfl
@[simp] theorem setEngine_draws (e : Engine) : (setEngine e s).draws = s.draws := rfl

/-! ## storeByte -/

@[simp] theorem storeByte_status (a : Word) (v : Byte) : (storeByte a v s).status = s.status := rfl
@[simp] theorem storeByte_k (a : Word) (v : Byte) : (storeByte a v s).k = s.k := rfl
@[simp] theorem storeByte_inAddr (a : Word) (v : Byte) : (storeByte a v s).inAddr = s.inAddr := rfl
@[simp] theorem storeByte_inLen (a : Word) (v : Byte) : (storeByte a v s).inLen = s.inLen := rfl
@[simp] theorem storeByte_outAddr (a : Word) (v : Byte) : (storeByte a v s).outAddr = s.outAddr := rfl
@[simp] theorem storeByte_outCap (a : Word) (v : Byte) : (storeByte a v s).outCap = s.outCap := rfl
@[simp] theorem storeByte_outLen (a : Word) (v : Byte) : (storeByte a v s).outLen = s.outLen := rfl
@[simp] theorem storeByte_eng (a : Word) (v : Byte) : (storeByte a v s).eng = s.eng := rfl
@[simp] theorem storeByte_mem (a : Word) (v : Byte) : (storeByte a v s).mem = memWrite s.mem a v := rfl
@[simp] theorem storeByte_host (a : Word) (v : Byte) : (storeByte a v s).host = s.host := rfl
@[simp] theorem storeByte_platform (a : Word) (v : Byte) : (storeByte a v s).platform = s.platform := rfl
@[simp] theorem storeByte_agenda (a : Word) (v : Byte) : (storeByte a v s).agenda = s.agenda := rfl
@[simp] theorem storeByte_draws (a : Word) (v : Byte) : (storeByte a v s).draws = s.draws := rfl

/-! ## forgetWindow -/

@[simp] theorem forgetWindow_status (w : Window) : (forgetWindow w s).status = s.status := rfl
@[simp] theorem forgetWindow_k (w : Window) : (forgetWindow w s).k = s.k := rfl
@[simp] theorem forgetWindow_inAddr (w : Window) : (forgetWindow w s).inAddr = s.inAddr := rfl
@[simp] theorem forgetWindow_inLen (w : Window) : (forgetWindow w s).inLen = s.inLen := rfl
@[simp] theorem forgetWindow_outAddr (w : Window) : (forgetWindow w s).outAddr = s.outAddr := rfl
@[simp] theorem forgetWindow_outCap (w : Window) : (forgetWindow w s).outCap = s.outCap := rfl
@[simp] theorem forgetWindow_outLen (w : Window) : (forgetWindow w s).outLen = s.outLen := rfl
@[simp] theorem forgetWindow_eng (w : Window) : (forgetWindow w s).eng = s.eng := rfl
@[simp] theorem forgetWindow_mem (w : Window) : (forgetWindow w s).mem = memFillFree s.mem w.base s.draws w.len := rfl
@[simp] theorem forgetWindow_host (w : Window) : (forgetWindow w s).host = s.host := rfl
@[simp] theorem forgetWindow_platform (w : Window) : (forgetWindow w s).platform = s.platform := rfl
@[simp] theorem forgetWindow_agenda (w : Window) : (forgetWindow w s).agenda = s.agenda := rfl
@[simp] theorem forgetWindow_draws (w : Window) : (forgetWindow w s).draws = s.draws + w.len := rfl

/-! ## hostAdvance -/

@[simp] theorem hostAdvance_status : (hostAdvance s).status = s.status := rfl
@[simp] theorem hostAdvance_k : (hostAdvance s).k = s.k := rfl
@[simp] theorem hostAdvance_inAddr : (hostAdvance s).inAddr = s.inAddr := rfl
@[simp] theorem hostAdvance_inLen : (hostAdvance s).inLen = s.inLen := rfl
@[simp] theorem hostAdvance_outAddr : (hostAdvance s).outAddr = s.outAddr := rfl
@[simp] theorem hostAdvance_outCap : (hostAdvance s).outCap = s.outCap := rfl
@[simp] theorem hostAdvance_outLen : (hostAdvance s).outLen = s.outLen := rfl
@[simp] theorem hostAdvance_eng : (hostAdvance s).eng = s.eng := rfl
@[simp] theorem hostAdvance_mem : (hostAdvance s).mem = s.mem := rfl
@[simp] theorem hostAdvance_host : (hostAdvance s).host = { s.host with pc := s.host.pc + 1 } := rfl
@[simp] theorem hostAdvance_platform : (hostAdvance s).platform = s.platform := rfl
@[simp] theorem hostAdvance_agenda : (hostAdvance s).agenda = s.agenda := rfl
@[simp] theorem hostAdvance_draws : (hostAdvance s).draws = s.draws := rfl

/-! ## hostJump -/

@[simp] theorem hostJump_status (label : Nat) : (hostJump label s).status = s.status := rfl
@[simp] theorem hostJump_k (label : Nat) : (hostJump label s).k = s.k := rfl
@[simp] theorem hostJump_inAddr (label : Nat) : (hostJump label s).inAddr = s.inAddr := rfl
@[simp] theorem hostJump_inLen (label : Nat) : (hostJump label s).inLen = s.inLen := rfl
@[simp] theorem hostJump_outAddr (label : Nat) : (hostJump label s).outAddr = s.outAddr := rfl
@[simp] theorem hostJump_outCap (label : Nat) : (hostJump label s).outCap = s.outCap := rfl
@[simp] theorem hostJump_outLen (label : Nat) : (hostJump label s).outLen = s.outLen := rfl
@[simp] theorem hostJump_eng (label : Nat) : (hostJump label s).eng = s.eng := rfl
@[simp] theorem hostJump_mem (label : Nat) : (hostJump label s).mem = s.mem := rfl
@[simp] theorem hostJump_host (label : Nat) : (hostJump label s).host = { s.host with pc := label } := rfl
@[simp] theorem hostJump_platform (label : Nat) : (hostJump label s).platform = s.platform := rfl
@[simp] theorem hostJump_agenda (label : Nat) : (hostJump label s).agenda = s.agenda := rfl
@[simp] theorem hostJump_draws (label : Nat) : (hostJump label s).draws = s.draws := rfl

/-! ## tempWrite -/

@[simp] theorem tempWrite_status (t : Nat) (v : Word) : (tempWrite t v s).status = s.status := rfl
@[simp] theorem tempWrite_k (t : Nat) (v : Word) : (tempWrite t v s).k = s.k := rfl
@[simp] theorem tempWrite_inAddr (t : Nat) (v : Word) : (tempWrite t v s).inAddr = s.inAddr := rfl
@[simp] theorem tempWrite_inLen (t : Nat) (v : Word) : (tempWrite t v s).inLen = s.inLen := rfl
@[simp] theorem tempWrite_outAddr (t : Nat) (v : Word) : (tempWrite t v s).outAddr = s.outAddr := rfl
@[simp] theorem tempWrite_outCap (t : Nat) (v : Word) : (tempWrite t v s).outCap = s.outCap := rfl
@[simp] theorem tempWrite_outLen (t : Nat) (v : Word) : (tempWrite t v s).outLen = s.outLen := rfl
@[simp] theorem tempWrite_eng (t : Nat) (v : Word) : (tempWrite t v s).eng = s.eng := rfl
@[simp] theorem tempWrite_mem (t : Nat) (v : Word) : (tempWrite t v s).mem = s.mem := rfl
@[simp] theorem tempWrite_host (t : Nat) (v : Word) : (tempWrite t v s).host = { s.host with temps := cellsWrite 0 s.host.temps t v } := rfl
@[simp] theorem tempWrite_platform (t : Nat) (v : Word) : (tempWrite t v s).platform = s.platform := rfl
@[simp] theorem tempWrite_agenda (t : Nat) (v : Word) : (tempWrite t v s).agenda = s.agenda := rfl
@[simp] theorem tempWrite_draws (t : Nat) (v : Word) : (tempWrite t v s).draws = s.draws := rfl

/-! ## setAgenda -/

@[simp] theorem setAgenda_status (rest : List Agent) : (setAgenda rest s).status = s.status := rfl
@[simp] theorem setAgenda_k (rest : List Agent) : (setAgenda rest s).k = s.k := rfl
@[simp] theorem setAgenda_inAddr (rest : List Agent) : (setAgenda rest s).inAddr = s.inAddr := rfl
@[simp] theorem setAgenda_inLen (rest : List Agent) : (setAgenda rest s).inLen = s.inLen := rfl
@[simp] theorem setAgenda_outAddr (rest : List Agent) : (setAgenda rest s).outAddr = s.outAddr := rfl
@[simp] theorem setAgenda_outCap (rest : List Agent) : (setAgenda rest s).outCap = s.outCap := rfl
@[simp] theorem setAgenda_outLen (rest : List Agent) : (setAgenda rest s).outLen = s.outLen := rfl
@[simp] theorem setAgenda_eng (rest : List Agent) : (setAgenda rest s).eng = s.eng := rfl
@[simp] theorem setAgenda_mem (rest : List Agent) : (setAgenda rest s).mem = s.mem := rfl
@[simp] theorem setAgenda_host (rest : List Agent) : (setAgenda rest s).host = s.host := rfl
@[simp] theorem setAgenda_platform (rest : List Agent) : (setAgenda rest s).platform = s.platform := rfl
@[simp] theorem setAgenda_agenda (rest : List Agent) : (setAgenda rest s).agenda = rest := rfl
@[simp] theorem setAgenda_draws (rest : List Agent) : (setAgenda rest s).draws = s.draws := rfl

/-! ## countDraws -/

@[simp] theorem countDraws_status (count : Nat) : (countDraws count s).status = s.status := rfl
@[simp] theorem countDraws_k (count : Nat) : (countDraws count s).k = s.k := rfl
@[simp] theorem countDraws_inAddr (count : Nat) : (countDraws count s).inAddr = s.inAddr := rfl
@[simp] theorem countDraws_inLen (count : Nat) : (countDraws count s).inLen = s.inLen := rfl
@[simp] theorem countDraws_outAddr (count : Nat) : (countDraws count s).outAddr = s.outAddr := rfl
@[simp] theorem countDraws_outCap (count : Nat) : (countDraws count s).outCap = s.outCap := rfl
@[simp] theorem countDraws_outLen (count : Nat) : (countDraws count s).outLen = s.outLen := rfl
@[simp] theorem countDraws_eng (count : Nat) : (countDraws count s).eng = s.eng := rfl
@[simp] theorem countDraws_mem (count : Nat) : (countDraws count s).mem = s.mem := rfl
@[simp] theorem countDraws_host (count : Nat) : (countDraws count s).host = s.host := rfl
@[simp] theorem countDraws_platform (count : Nat) : (countDraws count s).platform = s.platform := rfl
@[simp] theorem countDraws_agenda (count : Nat) : (countDraws count s).agenda = s.agenda := rfl
@[simp] theorem countDraws_draws (count : Nat) : (countDraws count s).draws = s.draws + count := rfl

/-! ## The predicates that read few fields -/

@[simp] theorem busy_setResult (status len : Word) : busy (setResult status len s) = statusBusy status := rfl
@[simp] theorem busy_setEngine (e : Engine) : busy (setEngine e s) = busy s := rfl
@[simp] theorem busy_storeByte (a : Word) (v : Byte) : busy (storeByte a v s) = busy s := rfl
@[simp] theorem busy_forgetWindow (w : Window) : busy (forgetWindow w s) = busy s := rfl
@[simp] theorem busy_setAgenda (rest : List Agent) : busy (setAgenda rest s) = busy s := rfl
@[simp] theorem busy_countDraws (count : Nat) : busy (countDraws count s) = busy s := rfl
@[simp] theorem busy_hostAdvance : busy (hostAdvance s) = busy s := rfl
@[simp] theorem busy_hostJump (label : Nat) : busy (hostJump label s) = busy s := rfl
@[simp] theorem busy_tempWrite (t : Nat) (v : Word) : busy (tempWrite t v s) = busy s := rfl

/-! ## The STATUS words an operation ends or runs with -/

@[simp] theorem statusBusy_running : statusBusy statusRunning = true := rfl
@[simp] theorem statusBusy_success : statusBusy statusSuccess = false := rfl
@[simp] theorem statusBusy_failed (e : ErrorKind) : statusBusy (statusFailed e) = false := by cases e <;> rfl

@[simp] theorem busy_complete : busy (complete s) = false := statusBusy_success
@[simp] theorem busy_reportError (e : ErrorKind) : busy (reportError e s) = false := statusBusy_failed e
@[simp] theorem busy_raiseError (e : ErrorKind) : busy (raiseError e s) = false := statusBusy_failed e
@[simp] theorem busy_completeInvalid : busy (completeInvalid s) = false := statusBusy_failed .invalidParameter
@[simp] theorem busy_resetStep : busy (resetStep s) = false := by
  show statusBusy 0 = false
  decide

/-- The numbers of 95_test_vectors.md: 1 busy, 2 done, 6, 0xA and 0xE the three errors. -/
theorem status_words :
    statusRunning = 0x1 ∧ statusSuccess = 0x2 ∧ statusFailed .capacityExceeded = 0x6 ∧
      statusFailed .malformedStuffedInput = 0xA ∧ statusFailed .invalidParameter = 0xE := by decide

end Sys2Proof.Machine
end

