-- ==== Sys2Proof/Laws/Memory.lean ====
section
/-! SUPPORT. Cell lists and data memory: a read after a write, what a write leaves alone, and that every memory operation
keeps the canonical form. -/

namespace Sys2Proof.Machine

section Cells

variable {α : Type} [DecidableEq α] {d : α}

theorem cellsWf_cons {c : Nat × α} {rest : List (Nat × α)} :
    cellsWf d (c :: rest) = true ↔ c.2 ≠ d ∧ (∀ e ∈ rest, c.1 < e.1) ∧ cellsWf d rest = true := by
  simp [cellsWf, and_assoc]

omit [DecidableEq α] in
/-- A key below every listed key is not listed. -/
theorem cellsRead_of_forall_lt {cells : List (Nat × α)} {key : Nat} (h : ∀ e ∈ cells, key < e.1) :
    cellsRead d cells key = d := by
  induction cells with
  | nil => rfl
  | cons c rest ih =>
    have hc := h c (by simp)
    simp only [cellsRead, if_neg (Nat.ne_of_gt hc)]
    exact ih fun e he => h e (by simp [he])

theorem cellsRead_cellsWrite_other {cells : List (Nat × α)} {key other : Nat} {v : α} (h : other ≠ key) :
    cellsRead d (cellsWrite d cells key v) other = cellsRead d cells other := by
  induction cells with
  | nil => by_cases hv : v = d <;> simp [cellsWrite, cellsRead, hv, h.symm]
  | cons c rest ih =>
    simp only [cellsWrite]
    split
    · by_cases hv : v = d <;> simp [cellsRead, hv, h.symm]
    · split
      · next hk => by_cases hv : v = d <;> simp [cellsRead, hv, ← hk, h.symm]
      · simp [cellsRead, ih]

theorem cellsRead_cellsWrite_same {cells : List (Nat × α)} {key : Nat} {v : α} (h : cellsWf d cells = true) :
    cellsRead d (cellsWrite d cells key v) key = v := by
  induction cells with
  | nil => by_cases hv : v = d <;> simp [cellsWrite, cellsRead, hv]
  | cons c rest ih =>
    obtain ⟨-, hlt, hrest⟩ := cellsWf_cons.1 h
    simp only [cellsWrite]
    split
    · next hk =>
      have hall : ∀ e ∈ c :: rest, key < e.1 := by
        intro e he
        rcases List.mem_cons.1 he with rfl | he
        · exact hk
        · exact Nat.lt_trans hk (hlt e he)
      by_cases hv : v = d
      · simp [hv, cellsRead_of_forall_lt hall]
      · simp [hv, cellsRead]
    · split
      · next hk =>
        by_cases hv : v = d
        · simp [hv, cellsRead_of_forall_lt (hk ▸ hlt)]
        · simp [hv, cellsRead]
      · next hk => simp [cellsRead, Ne.symm hk, ih hrest]

/-- A write lists no key but its own and those listed before. -/
theorem mem_cellsWrite {cells : List (Nat × α)} {key : Nat} {v : α} {e : Nat × α}
    (h : e ∈ cellsWrite d cells key v) : e.1 = key ∨ e ∈ cells := by
  induction cells with
  | nil => by_cases hv : v = d <;> simp_all [cellsWrite]
  | cons c rest ih =>
    simp only [cellsWrite] at h
    split at h
    · by_cases hv : v = d
      · exact .inr (by simpa [hv] using h)
      · rcases (by simpa [hv] using h : e = (key, v) ∨ e = c ∨ e ∈ rest) with rfl | he | he <;> simp_all
    · split at h
      · by_cases hv : v = d
        · exact .inr (by simp [(by simpa [hv] using h : e ∈ rest)])
        · rcases (by simpa [hv] using h : e = (key, v) ∨ e ∈ rest) with rfl | he <;> simp_all
      · rcases List.mem_cons.1 h with rfl | he
        · simp
        · rcases ih he with h' | h' <;> simp [h']

theorem cellsWf_cellsWrite {cells : List (Nat × α)} {key : Nat} {v : α} (h : cellsWf d cells = true) :
    cellsWf d (cellsWrite d cells key v) = true := by
  induction cells with
  | nil => by_cases hv : v = d <;> simp [cellsWrite, cellsWf, hv]
  | cons c rest ih =>
    obtain ⟨hc, hlt, hrest⟩ := cellsWf_cons.1 h
    simp only [cellsWrite]
    split
    · next hk =>
      by_cases hv : v = d
      · simpa [hv] using h
      · simp only [hv, if_false]
        refine cellsWf_cons.2 ⟨hv, fun e he => ?_, h⟩
        rcases List.mem_cons.1 he with rfl | he
        · exact hk
        · exact Nat.lt_trans hk (hlt e he)
    · split
      · next hk =>
        by_cases hv : v = d
        · simpa [hv] using hrest
        · simp only [hv, if_false]
          exact cellsWf_cons.2 ⟨hv, hk ▸ hlt, hrest⟩
      · next hlt' hne =>
        refine cellsWf_cons.2 ⟨hc, fun e he => ?_, ih hrest⟩
        rcases mem_cellsWrite he with rfl | he
        · omega
        · exact hlt e he

end Cells

/-! ## Data memory -/

theorem memRead_memWrite_same {m : Memory} {a : Word} {v : Byte} (h : memoryWf m = true) :
    memRead (memWrite m a v) a = v := by
  simp only [memoryWf, Bool.and_eq_true] at h
  exact cellsRead_cellsWrite_same h.1

theorem memRead_memWrite_other {m : Memory} {a b : Word} {v : Byte} (h : b ≠ a) :
    memRead (memWrite m a v) b = memRead m b :=
  cellsRead_cellsWrite_other fun hab => h (BitVec.eq_of_toNat_eq hab)

/-- A memory write keeps the canonical form. -/
theorem memoryWf_memWrite {m : Memory} {a : Word} {v : Byte} (h : memoryWf m = true) :
    memoryWf (memWrite m a v) = true := by
  simp only [memoryWf, Bool.and_eq_true, List.all_eq_true, decide_eq_true_eq] at h ⊢
  refine ⟨cellsWf_cellsWrite h.1, fun e he => ?_⟩
  rcases mem_cellsWrite he with he | he
  · exact he ▸ a.isLt
  · exact h.2 e he

/-- Filling with free bytes keeps the canonical form. -/
theorem memoryWf_memFillFree {m : Memory} {base : Word} {draw count : Nat} (h : memoryWf m = true) :
    memoryWf (memFillFree m base draw count) = true := by
  induction count with
  | zero => exact h
  | succ c ih => exact memoryWf_memWrite ih

/-- Filling leaves every byte outside the filled range alone. -/
theorem memRead_memFillFree_outside {m : Memory} {base a : Word} {draw count : Nat}
    (h : ∀ b < count, a ≠ base + BitVec.ofNat 32 b) : memRead (memFillFree m base draw count) a = memRead m a := by
  induction count with
  | zero => rfl
  | succ c ih =>
    rw [memFillFree, memRead_memWrite_other (h c (by omega))]
    exact ih fun b hb => h b (by omega)

/-- Each byte of the filled range is the free byte drawn for it. -/
theorem memRead_memFillFree_inside {m : Memory} {base : Word} {draw count b : Nat} (hm : memoryWf m = true)
    (hc : count ≤ 2 ^ 32) (hb : b < count) :
    memRead (memFillFree m base draw count) (base + BitVec.ofNat 32 b) = Config.freeByte (draw + b) := by
  induction count with
  | zero => omega
  | succ c ih =>
    rw [memFillFree]
    by_cases hbc : b = c
    · subst hbc
      exact memRead_memWrite_same (memoryWf_memFillFree hm)
    · rw [memRead_memWrite_other, ih (by omega) (by omega)]
      intro h
      have := congrArg BitVec.toNat h
      have := base.isLt
      simp only [BitVec.toNat_add, BitVec.toNat_ofNat] at *
      omega

theorem memoryWf_storeByte {s : State} {a : Word} {v : Byte} (h : memoryWf s.mem = true) :
    memoryWf (storeByte a v s).mem = true := memoryWf_memWrite h

theorem memoryWf_forgetWindow {s : State} {w : Window} (h : memoryWf s.mem = true) :
    memoryWf (forgetWindow w s).mem = true := memoryWf_memFillFree h

/-- The memory after reset is in canonical form. -/
theorem memoryWf_reset : memoryWf State.reset.mem = true := by decide

/-! ## Host temporaries -/

theorem tempRead_tempWrite_same {s : State} {t : Nat} {v : Word} (h : cellsWf 0 s.host.temps = true) :
    tempRead (tempWrite t v s) t = v := cellsRead_cellsWrite_same h

theorem tempRead_tempWrite_other {s : State} {t u : Nat} {v : Word} (h : u ≠ t) :
    tempRead (tempWrite t v s) u = tempRead s u := cellsRead_cellsWrite_other h

end Sys2Proof.Machine
end

