-- ==== Sys2Proof/Laws/Window.lean ====
section
/-! SUPPORT. The window tests of the machine say what the spec's set language says (20_memory.md R55, R57, R58), and
forgetting a window touches that window alone. -/

namespace Sys2Proof.Machine

/-- Membership is R55's: `(base + b) mod 2^32` for some `b < len`. -/
theorem windowHas_iff {w : Window} {a : Word} :
    windowHas w a = true ↔ ∃ b, b < w.len ∧ a = w.base + BitVec.ofNat 32 b := by
  simp only [windowHas, decide_eq_true_eq]
  constructor
  · intro h
    refine ⟨(a - w.base).toNat, h, ?_⟩
    rw [BitVec.ofNat_toNat]
    simp
  · rintro ⟨b, hb, rfl⟩
    have : (w.base + BitVec.ofNat 32 b - w.base).toNat = b % 2 ^ 32 := by
      rw [BitVec.add_comm, BitVec.add_sub_cancel]
      exact BitVec.toNat_ofNat ..
    rw [this]
    exact Nat.lt_of_le_of_lt (Nat.mod_le ..) hb

/-- The overlap test is R57's "share any byte". -/
theorem windowsOverlap_iff {v w : Window} :
    windowsOverlap v w = true ↔ ∃ a : Word, windowHas v a = true ∧ windowHas w a = true := by
  simp only [windowsOverlap, windowHas, Bool.and_eq_true, Bool.or_eq_true, decide_eq_true_eq]
  constructor
  · rintro ⟨⟨hv, hw⟩, h | h⟩
    · exact ⟨w.base, h, by simpa using hw⟩
    · exact ⟨v.base, by simpa using hv, h⟩
  · rintro ⟨a, hv, hw⟩
    refine ⟨⟨by omega, by omega⟩, ?_⟩
    simp only [BitVec.toNat_sub] at *
    have := a.isLt
    have := v.base.isLt
    have := w.base.isLt
    omega

theorem windowsOverlap_eq_false_iff {v w : Window} : windowsOverlap v w = false ↔ WindowsDisjoint v w := by
  rw [← Bool.not_eq_true, windowsOverlap_iff, WindowsDisjoint, not_exists]

/-- The memory-kind test is R58's "every byte". -/
theorem windowOrdinary_iff {p : Platform} {w : Window} : windowOrdinary p w = true ↔ AllOrdinary p w := by
  simp only [windowOrdinary, AllOrdinary, memOrdinary, List.all_eq_true, Bool.not_eq_true',
    windowsOverlap_eq_false_iff, WindowsDisjoint]
  constructor
  · intro h a ha d hd
    exact Bool.eq_false_iff.2 fun hda => h d hd a ⟨hda, ha⟩
  · intro h d hd a ⟨hda, ha⟩
    exact Bool.eq_false_iff.1 (h a ha d hd) hda

/-- Forgetting a window leaves every byte outside it alone. -/
theorem memRead_forgetWindow_outside {s : State} {w : Window} {a : Word} (h : windowHas w a = false) :
    memRead (forgetWindow w s).mem a = memRead s.mem a :=
  memRead_memFillFree_outside fun b hb hab => Bool.eq_false_iff.1 h (windowHas_iff.2 ⟨b, hb, hab⟩)

/-- Forgetting a window gives each of its bytes the free byte drawn for it. -/
theorem memRead_forgetWindow_inside {s : State} {w : Window} {b : Nat} (hs : memoryWf s.mem = true)
    (hw : w.len ≤ 2 ^ 32) (hb : b < w.len) :
    memRead (forgetWindow w s).mem (w.base + BitVec.ofNat 32 b) = Config.freeByte (s.draws + b) :=
  memRead_memFillFree_inside hs hw hb

/-- The capacity in bits is exact in its 35 bits (10_state.md R27). -/
theorem capacityBits_toNat (outCap : Word) : (capacityBits outCap).toNat = 8 * outCap.toNat := by
  have := outCap.isLt
  simp only [capacityBits, BitVec.toNat_ofNat]
  omega

theorem inWindow_latched (op : Op) (s : State) : inWindow (latched op s) = operandInWindow s := rfl

theorem outWindow_latched (op : Op) (s : State) : outWindow (latched op s) = operandOutWindow s := by
  simp [outWindow, latched, operandOutWindow, capacityBits_toNat]

end Sys2Proof.Machine
end

