-- ==== Sys2Proof/Laws/Bits.lean ====
section
/-! SUPPORT. Bits of a stored sequence, and everything PutBit does (00_scope.md R8, 40_command.md R109). -/

namespace Sys2Proof.Machine

/-- Inside its width a counter counts exactly (log entry 11). -/
theorem increment_toNat {w : Word} (h : w.toNat + 1 < 2 ^ 32) : (increment w).toNat = w.toNat + 1 := by
  simp only [increment, BitVec.toNat_ofNat]; omega

/-- PutBit raises exactly when the capacity is used up (R109, R161). -/
theorem putBit_eq_none_iff {b : Bool} {s : State} : putBit b s = none ↔ s.eng.capBits.toNat ≤ s.eng.o.toNat := by
  simp [putBit]

/-- What PutBit does where it does not raise, in any state. -/
theorem putBit_eq_some {b : Bool} {s t : State} (h : putBit b s = some t) :
    s.eng.o.toNat < s.eng.capBits.toNat ∧
      t = setEngine { s.eng with acc := accWith b s.eng, o := increment s.eng.o }
        (storeByte (outByteAddress s.eng) (accWith b s.eng) s) := by
  simp only [putBit] at h
  split at h
  · cases h
  · next hc => exact ⟨by omega, (Option.some.inj h).symm⟩

/-- Two output bits in different bytes of a sequence shorter than 2^32 bits lie at different addresses. -/
theorem byteAddress_inj {a : Word} {p q : Nat} (hp : p < 2 ^ 32) (hq : q < 2 ^ 32)
    (h : a + BitVec.ofNat 32 p = a + BitVec.ofNat 32 q) : p = q := by
  have := congrArg BitVec.toNat h
  have := a.isLt
  simp only [BitVec.toNat_add, BitVec.toNat_ofNat] at *
  omega

/-- The bits of the current byte with one output bit put in (R109). -/
theorem accWith_getLsbD {b : Bool} {e : Engine} {p : Nat} (hp : p < 8) :
    (accWith b e).getLsbD p =
      ((decide (e.o.toNat % 8 ≠ 0) && e.acc.getLsbD p) || (decide (p = 7 - e.o.toNat % 8) && b)) := by
  have h8 : e.o.toNat % 8 < 8 := Nat.mod_lt _ (by decide)
  have hb : (BitVec.zeroExtend 8 (BitVec.ofBool b) <<< (7 - e.o.toNat % 8)).getLsbD p =
      (decide (p = 7 - e.o.toNat % 8) && b) := by
    simp only [BitVec.getLsbD_shiftLeft, BitVec.truncate_eq_setWidth, BitVec.getLsbD_setWidth, BitVec.getLsbD_ofBool]
    rcases Nat.lt_trichotomy p (7 - e.o.toNat % 8) with h | h | h
    · simp [h, Nat.ne_of_lt h]
    · simp [h]; omega
    · simp [Nat.ne_of_gt h]; omega
  rw [accWith, BitVec.getLsbD_or, hb]
  by_cases h0 : e.o.toNat % 8 = 0 <;> simp [h0]

/-- The low `n` bits of a byte are 0 when it is a multiple of 2^n. -/
theorem getLsbD_of_mod_eq_zero {v : Byte} {n p : Nat} (h : v.toNat % 2 ^ n = 0) (hp : p < n) : v.getLsbD p = false := by
  rw [BitVec.getLsbD, ← Nat.mod_add_div v.toNat (2^n), h]
  simp [Nat.testBit_two_pow_mul, hp]


/-- A byte whose low `n` bits are 0 is a multiple of 2^n. -/
theorem mod_two_pow_eq_zero {v : Byte} {n : Nat} (h : ∀ p < n, v.getLsbD p = false) : v.toNat % 2 ^ n = 0 := by
  apply Nat.eq_of_testBit_eq
  intro p
  by_cases hp : p < n
  · simpa [Nat.testBit_mod_two_pow, hp, BitVec.getLsbD] using h p hp
  · simp [Nat.testBit_mod_two_pow, hp]

/-- The bits of a sequence after one byte of memory has been written. -/
theorem seqBit_memWrite {m : Memory} {a : Word} {v : Byte} {j c : Nat} (hm : memoryWf m = true)
    (hj : j < 2 ^ 32) (hc : c < 2 ^ 32) :
    seqBit (memWrite m (a + BitVec.ofNat 32 (c / 8)) v) a j =
      if j / 8 = c / 8 then v.getLsbD (7 - j % 8) else seqBit m a j := by
  by_cases h : j / 8 = c / 8
  · simp [seqBit, h, memRead_memWrite_same hm]
  · simp only [seqBit, h, if_false]
    rw [memRead_memWrite_other fun hab => h (byteAddress_inj (by omega) (by omega) hab)]

/-- Everything PutBit does when it has room (R109): the bit lands at output index eng.o, earlier output bits stay, no byte
but the current one changes, and the current byte is written through with its unwritten bits 0. -/
theorem putBit_spec {b : Bool} {s : State} (hm : memoryWf s.mem = true) (hcur : OutputByteCurrent s)
    (hcap : s.eng.o.toNat < s.eng.capBits.toNat) (ho : s.eng.o.toNat + 1 < 2 ^ 32) :
    ∃ t, putBit b s = some t ∧ t = { s with mem := t.mem, eng := { s.eng with acc := t.eng.acc, o := t.eng.o } } ∧
      t.eng.o.toNat = s.eng.o.toNat + 1 ∧ memoryWf t.mem = true ∧ OutputByteCurrent t ∧
      seqBit t.mem s.eng.outAddr s.eng.o.toNat = b ∧
      (∀ j < s.eng.o.toNat, seqBit t.mem s.eng.outAddr j = seqBit s.mem s.eng.outAddr j) ∧
      ∀ x, x ≠ outByteAddress s.eng → memRead t.mem x = memRead s.mem x := by
  have hput : putBit b s = some (setEngine { s.eng with acc := accWith b s.eng, o := increment s.eng.o }
      (storeByte (outByteAddress s.eng) (accWith b s.eng) s)) := by
    simp [putBit, Nat.not_le.2 hcap]
  have hlow : s.eng.o.toNat % 8 ≠ 0 → ∀ p < 8 - s.eng.o.toNat % 8, s.eng.acc.getLsbD p = false :=
    fun h p hp => getLsbD_of_mod_eq_zero (hcur h).2 hp
  refine ⟨_, hput, rfl, increment_toNat ho, memoryWf_memWrite hm, ?_, ?_, ?_, ?_⟩
  · intro hne
    simp only [setEngine_eng, setEngine_mem, storeByte_mem, outByteAddress, increment_toNat ho] at hne ⊢
    have hsame : (s.eng.o.toNat + 1) / 8 = s.eng.o.toNat / 8 := by omega
    refine ⟨by rw [hsame]; exact memRead_memWrite_same hm, mod_two_pow_eq_zero fun p hp => ?_⟩
    rw [accWith_getLsbD (by omega)]
    by_cases h0 : s.eng.o.toNat % 8 = 0
    · simp [h0]; omega
    · simp [h0, hlow h0 p (by omega)]; omega
  · simp only [setEngine_mem, storeByte_mem, outByteAddress]
    rw [seqBit_memWrite hm (by omega) (by omega), if_pos rfl, accWith_getLsbD (by omega)]
    by_cases h0 : s.eng.o.toNat % 8 = 0
    · simp [h0]
    · simp [h0, hlow h0 (7 - s.eng.o.toNat % 8) (by omega)]
  · intro j hj
    simp only [setEngine_mem, storeByte_mem, outByteAddress]
    rw [seqBit_memWrite hm (by omega) (by omega)]
    split
    · next hb =>
      have h0 : s.eng.o.toNat % 8 ≠ 0 := by omega
      have hp : 7 - j % 8 ≠ 7 - s.eng.o.toNat % 8 := by omega
      rw [accWith_getLsbD (by omega), seqBit, hb, ← outByteAddress, (hcur h0).1]
      simp [h0, hp]
    · rfl
  · exact fun x hx => memRead_memWrite_other hx

end Sys2Proof.Machine
end

