-- ==== Sys2Proof/Laws/Commands.lean ====
section
/-! SUPPORT. Once for all: everything a command, an engine step and a host line can do (40_command.md R100 to R107,
41_encode.md R122, 42_decode.md R142, 30_encoding.md R80). -/

namespace Sys2Proof.Machine

/-! ## Commands -/

/-- The parameter check is the spec's (R103). -/
theorem paramOk_iff {op : Op} {s : State} : paramOk op s = true ↔ ParamsOk op s := by
  cases op <;> simp [paramOk, ParamsOk, ceilDiv, Config.lenMax]

theorem unlessBusy_of_busy {act : State → Host.Outcome State Fault Refusal} {s : State} (h : busy s = true) :
    unlessBusy act s = .next s := by simp [unlessBusy, h]

theorem unlessBusy_of_idle {act : State → Host.Outcome State Fault Refusal} {s : State} (h : busy s = false) :
    unlessBusy act s = act s := by simp [unlessBusy, h]

/-- A start that fails the parameter check completes at once (R102). -/
theorem start_of_not_paramsOk {op : Op} {s : State} (h : ¬ ParamsOk op s) :
    start op s = .next (completeInvalid s) := by
  simp [start, Bool.eq_false_iff.2 fun hp => h (paramOk_iff.1 hp)]

/-- A start that passes every test latches its operands (R105). -/
theorem start_of_ok {op : Op} {s : State} (hp : ParamsOk op s) (hw : WindowsOk s) :
    start op s = .next (setResult statusRunning 0 (setEngine (latched op s) s)) := by
  obtain ⟨hdis, hin, hout⟩ := hw
  simp [start, paramOk_iff.2 hp, inWindow_latched, outWindow_latched, windowsOverlap_eq_false_iff.2 hdis,
    windowOrdinary_iff.2 hin, windowOrdinary_iff.2 hout]

/-- A start whose windows share a byte is refused (R57). -/
theorem start_of_overlap {op : Op} {s : State} (hp : ParamsOk op s)
    (h : ¬ WindowsDisjoint (operandInWindow s) (operandOutWindow s)) : start op s = .refused .windowOverlap := by
  have : windowsOverlap (operandInWindow s) (operandOutWindow s) = true := by
    rw [← Bool.not_eq_false, windowsOverlap_eq_false_iff]; exact h
  simp [start, paramOk_iff.2 hp, inWindow_latched, outWindow_latched, this]

/-- A start with disjoint windows that are not all ordinary memory is refused (R58). -/
theorem start_of_not_ordinary {op : Op} {s : State} (hp : ParamsOk op s)
    (hd : WindowsDisjoint (operandInWindow s) (operandOutWindow s))
    (h : ¬ (AllOrdinary s.platform (operandInWindow s) ∧ AllOrdinary s.platform (operandOutWindow s))) :
    start op s = .refused .notMemory := by
  have : (windowOrdinary s.platform (operandInWindow s) && windowOrdinary s.platform (operandOutWindow s)) = false := by
    rw [Bool.eq_false_iff, Ne, Bool.and_eq_true, windowOrdinary_iff, windowOrdinary_iff]; exact h
  simp [start, paramOk_iff.2 hp, inWindow_latched, outWindow_latched, windowsOverlap_eq_false_iff.2 hd, this]

/-- A start that answers a next state failed the check or latched its operands. -/
theorem start_next_cases {op : Op} {s t : State} (h : start op s = .next t) :
    (¬ ParamsOk op s ∧ t = completeInvalid s) ∨
      (ParamsOk op s ∧ WindowsOk s ∧ t = setResult statusRunning 0 (setEngine (latched op s) s)) := by
  by_cases hp : ParamsOk op s
  · right
    by_cases hd : WindowsDisjoint (operandInWindow s) (operandOutWindow s)
    · by_cases ho : AllOrdinary s.platform (operandInWindow s) ∧ AllOrdinary s.platform (operandOutWindow s)
      · rw [start_of_ok hp ⟨hd, ho⟩] at h
        exact ⟨hp, ⟨hd, ho⟩, (Host.Outcome.next.inj h).symm⟩
      · rw [start_of_not_ordinary hp hd ho] at h; cases h
    · rw [start_of_overlap hp hd] at h; cases h
  · rw [start_of_not_paramsOk hp] at h
    exact .inl ⟨hp, (Host.Outcome.next.inj h).symm⟩

/-- A command that answers a next state had no effect, completed with InvalidParameter, or started an operation. -/
theorem exec_next_cases {i : Instr} {s t : State} (h : exec i s = .next t) :
    t = s ∨ (busy s = false ∧ t = completeInvalid s) ∨
      ∃ op, busy s = false ∧ ParamsOk op s ∧ WindowsOk s ∧
        t = setResult statusRunning 0 (setEngine (latched op s) s) := by
  by_cases hb : busy s = true
  · left
    cases i <;> simp only [exec, execNop, execEncode, execDecode, execReserved, unlessBusy_of_busy hb] at h <;>
      exact (Host.Outcome.next.inj h).symm
  · have hb := Bool.eq_false_iff.2 hb
    have hstart : ∀ op, start op s = .next t → t = s ∨ (busy s = false ∧ t = completeInvalid s) ∨
        ∃ op, busy s = false ∧ ParamsOk op s ∧ WindowsOk s ∧
          t = setResult statusRunning 0 (setEngine (latched op s) s) := fun op h => by
      rcases start_next_cases h with ⟨-, rfl⟩ | ⟨hp, hw, rfl⟩
      · exact .inr (.inl ⟨hb, rfl⟩)
      · exact .inr (.inr ⟨op, hb, hp, hw, rfl⟩)
    cases i <;> simp only [exec, execNop, execEncode, execDecode, execReserved, unlessBusy_of_idle hb] at h
    case nop => exact .inl (Host.Outcome.next.inj h).symm
    case encode => exact hstart _ h
    case decode => exact hstart _ h
    case reserved => exact .inr (.inl ⟨hb, (Host.Outcome.next.inj h).symm⟩)

/-! ## Engine steps -/

/-- What an engine step can do: complete, raise an error, or go on from a state `t` with the run counter and the input
cursor moved. -/
theorem encStep_cases (s : State) :
    (s.eng.i = s.eng.n ∧ encStep s = complete s) ∨
    (s.eng.i ≠ s.eng.n ∧ putBit (getBit s) s = none ∧ encStep s = raiseError .capacityExceeded s) ∨
    ∃ c, s.eng.i ≠ s.eng.n ∧ putBit (getBit s) s = some c ∧
      ((getBit s = false ∧ encStep s = nextInputBit (setRun 0 c)) ∨
       (getBit s = true ∧ increment c.eng.run ≠ c.eng.k ∧
          encStep s = nextInputBit (setRun (increment c.eng.run) c)) ∨
       (getBit s = true ∧ increment c.eng.run = c.eng.k ∧ putBit false (setRun (increment c.eng.run) c) = none ∧
          encStep s = raiseError .capacityExceeded (setRun (increment c.eng.run) c)) ∨
       (getBit s = true ∧ increment c.eng.run = c.eng.k ∧
          ∃ d, putBit false (setRun (increment c.eng.run) c) = some d ∧ encStep s = nextInputBit (setRun 0 d))) := by
  by_cases hi : s.eng.i = s.eng.n
  · exact .inl ⟨hi, by simp [encStep, hi]⟩
  · right
    rcases hput : putBit (getBit s) s with - | c
    · exact .inl ⟨hi, rfl, by simp [encStep, hi, hput]⟩
    · refine .inr ⟨c, hi, rfl, ?_⟩
      have hstep : encStep s = if getBit s then countOne c else nextInputBit (setRun 0 c) := by
        simp only [encStep, if_neg hi, hput]
      by_cases hb : getBit s = true
      · rw [hstep, if_pos hb]
        by_cases hk : increment c.eng.run = c.eng.k
        · have hcount : countOne c = match putBit false (setRun (increment c.eng.run) c) with
              | none => raiseError .capacityExceeded (setRun (increment c.eng.run) c)
              | some stuffed => nextInputBit (setRun 0 stuffed) := if_pos hk
          rcases hst : putBit false (setRun (increment c.eng.run) c) with - | d
          · exact .inr (.inr (.inl ⟨hb, hk, rfl, by rw [hcount, hst]⟩))
          · exact .inr (.inr (.inr ⟨hb, hk, d, rfl, by rw [hcount, hst]⟩))
        · exact .inr (.inl ⟨hb, hk, if_neg hk⟩)
      · exact .inl ⟨Bool.eq_false_iff.2 hb, hstep.trans (if_neg hb)⟩

theorem decStep_cases (s : State) :
    (s.eng.i = s.eng.n ∧ s.eng.run = s.eng.k ∧ decStep s = raiseError .malformedStuffedInput s) ∨
    (s.eng.i = s.eng.n ∧ s.eng.run ≠ s.eng.k ∧ decStep s = complete s) ∨
    (s.eng.i ≠ s.eng.n ∧ s.eng.run = s.eng.k ∧ getBit s = true ∧ decStep s = raiseError .malformedStuffedInput s) ∨
    (s.eng.i ≠ s.eng.n ∧ s.eng.run = s.eng.k ∧ getBit s = false ∧ decStep s = nextInputBit (setRun 0 s)) ∨
    (s.eng.i ≠ s.eng.n ∧ s.eng.run ≠ s.eng.k ∧ putBit (getBit s) s = none ∧
      decStep s = raiseError .capacityExceeded s) ∨
    ∃ c, s.eng.i ≠ s.eng.n ∧ s.eng.run ≠ s.eng.k ∧ putBit (getBit s) s = some c ∧
      decStep s = nextInputBit (setRun (if getBit s then increment c.eng.run else 0) c) := by
  by_cases hi : s.eng.i = s.eng.n <;> by_cases hk : s.eng.run = s.eng.k
  · exact .inl ⟨hi, hk, by simp [decStep, hi, hk]⟩
  · exact .inr (.inl ⟨hi, hk, by simp [decStep, hi, hk]⟩)
  · right; right
    by_cases hb : getBit s = true
    · exact .inl ⟨hi, hk, hb, by simp [decStep, hi, hk, hb]⟩
    · have hb := Bool.eq_false_iff.2 hb
      exact .inr (.inl ⟨hi, hk, hb, by simp [decStep, hi, hk, hb]⟩)
  · right; right; right; right
    rcases hput : putBit (getBit s) s with - | c
    · exact .inl ⟨hi, hk, rfl, by simp [decStep, hi, hk, hput]⟩
    · exact .inr ⟨c, hi, hk, rfl, by simp [decStep, hi, hk, hput]⟩

/-! ## The host and a step -/

/-- What a write of a register can do (R73). -/
theorem regWrite_next_cases {r : Reg} {w : Word} {s t : State} (h : regWrite r w s = .next t) :
    (r = .cmd ∧ exec (decodeCommand w) s = .next t) ∨ t = s ∨
      ∃ k inAddr inLen outAddr outCap, t = { s with k := k, inAddr := inAddr, inLen := inLen, outAddr := outAddr,
                                                    outCap := outCap } := by
  cases r
  case cmd => exact .inl ⟨rfl, h⟩
  case status => exact .inr (.inl (Host.Outcome.next.inj h).symm)
  case outLen => exact .inr (.inl (Host.Outcome.next.inj h).symm)
  all_goals
    obtain rfl := Host.Outcome.next.inj h
    exact .inr (.inr ⟨_, _, _, _, _, rfl⟩)

/-- What a line of a host program can do (R80). -/
theorem hostOp_next_cases {op : HostOp} {s t : State} (h : hostOp op s = .next t) :
    (∃ i, exec i s = .next t) ∨ t = s ∨
      (∃ k inAddr inLen outAddr outCap, t = { s with k := k, inAddr := inAddr, inLen := inLen, outAddr := outAddr,
                                                     outCap := outCap }) ∨
      (∃ a v, op = .memWrite a v ∧
        ¬ (busy s = true ∧ (windowHas (inWindow s.eng) a = true ∨ windowHas (outWindow s.eng) a = true)) ∧
        t = storeByte a v s) ∨
      (∃ x v, t = tempWrite x v s ∨ t = tempWrite x v (countDraws 1 s)) ∨ (∃ label, t = hostJump label s) := by
  cases op with
  | memWrite a v =>
    simp only [hostOp, hostMemWrite] at h
    split at h
    · cases h
    · next h1 =>
      split at h
      · cases h
      · next h2 =>
        refine .inr (.inr (.inr (.inl ⟨a, v, rfl, ?_, (Host.Outcome.next.inj h).symm⟩)))
        simp only [Bool.and_eq_true, not_and] at h1 h2
        rintro ⟨hb, hw | hw⟩
        · exact h1 hb hw
        · exact h2 hb hw
  | memRead a x =>
    obtain rfl := Host.Outcome.next.inj h
    refine .inr (.inr (.inr (.inr (.inl ?_))))
    unfold hostMemRead
    split
    · exact ⟨x, _, .inr rfl⟩
    · exact ⟨x, _, .inl rfl⟩
  | busWrite width addr w =>
    simp only [hostOp] at h
    split at h
    · cases h
    · rcases regWrite_next_cases h with ⟨-, h⟩ | h | h
      · exact .inl ⟨_, h⟩
      · exact .inr (.inl h)
      · exact .inr (.inr (.inl h))
  | busRead width addr x =>
    simp only [hostOp] at h
    split at h
    · cases h
    · exact .inr (.inr (.inr (.inr (.inl ⟨x, _, .inl (Host.Outcome.next.inj h).symm⟩))))
  | branchNonZero x m label =>
    obtain h := Host.Outcome.next.inj h
    split at h
    · exact .inr (.inr (.inr (.inr (.inr ⟨label, h.symm⟩))))
    · exact .inr (.inl h.symm)

/-- What a turn of the host can do. -/
theorem hostTurn_next_cases {s t : State} (h : hostTurn s = .next t) :
    t = s ∨ ∃ op, s.host.prog[s.host.pc]? = some op ∧ hostOp op (hostAdvance s) = .next t := by
  simp only [hostTurn] at h
  split at h
  · exact .inl (Host.Outcome.next.inj h).symm
  · next op hop => exact .inr ⟨op, hop, h⟩

/-- What a step can do: a turn of one agent, from the state with the agenda moved on. -/
theorem step_next_cases {s t : State} (h : step s = .next t) :
    ∃ rest, hostTurn (setAgenda rest s) = .next t ∨ t = engineTurn (setAgenda rest s) ∨
      t = resetStep (setAgenda rest s) := by
  have turn : ∀ a (u : State), agentTurn a u = .next t → hostTurn u = .next t ∨ t = engineTurn u ∨ t = resetStep u := by
    intro a u hu
    cases a
    case host => exact .inl hu
    case engine => exact .inr (.inl (Host.Outcome.next.inj hu).symm)
    case reset => exact .inr (.inr (Host.Outcome.next.inj hu).symm)
  simp only [step] at h
  split at h
  · exact ⟨_, turn _ _ h⟩
  · exact ⟨s.agenda, turn _ _ h⟩

end Sys2Proof.Machine
end

