-- ==== Sys2Proof/Laws/Engine.lean ====
section
/-! SUPPORT. What an engine step depends on: its internal state, memory and the count of free bytes, nothing else. A change
of the state that leaves those alone can be made before or after the step (40_command.md R106, R112). -/

namespace Sys2Proof.Machine

/-- A change of the state that an engine step neither sees nor undoes. -/
structure Bystander (f : State → State) : Prop where
  eng (s : State) : (f s).eng = s.eng
  mem (s : State) : (f s).mem = s.mem
  setEngine (e : Engine) (s : State) : setEngine e (f s) = f (setEngine e s)
  storeByte (a : Word) (v : Byte) (s : State) : storeByte a v (f s) = f (storeByte a v s)
  forgetWindow (w : Window) (s : State) : forgetWindow w (f s) = f (forgetWindow w s)
  setResult (status len : Word) (s : State) : setResult status len (f s) = f (setResult status len s)

variable {f : State → State}

theorem bystander_putBit (hf : Bystander f) (b : Bool) (s : State) : putBit b (f s) = (putBit b s).map f := by
  by_cases h : s.eng.capBits.toNat ≤ s.eng.o.toNat
  · rw [putBit_eq_none_iff.2 h, putBit_eq_none_iff.2 (by rw [hf.eng]; exact h), Option.map_none]
  · simp only [putBit, hf.eng, if_neg h, hf.storeByte, hf.setEngine, Option.map_some]

theorem bystander_getBit (hf : Bystander f) (s : State) : getBit (f s) = getBit s := by
  simp only [getBit, hf.eng, hf.mem]

theorem bystander_raiseError (hf : Bystander f) (e : ErrorKind) (s : State) :
    raiseError e (f s) = f (raiseError e s) := by
  simp only [raiseError, reportError, hf.eng, hf.forgetWindow, hf.setResult]

theorem bystander_complete (hf : Bystander f) (s : State) : complete (f s) = f (complete s) := by
  simp only [complete, hf.eng, hf.setResult]

theorem bystander_setRun (hf : Bystander f) (r : Word) (s : State) : setRun r (f s) = f (setRun r s) := by
  simp only [setRun, hf.eng, hf.setEngine]

theorem bystander_nextInputBit (hf : Bystander f) (s : State) : nextInputBit (f s) = f (nextInputBit s) := by
  simp only [nextInputBit, hf.eng, hf.setEngine]

theorem bystander_countOne (hf : Bystander f) (s : State) : countOne (f s) = f (countOne s) := by
  simp only [countOne, hf.eng, bystander_setRun hf, bystander_putBit hf]
  split
  · rcases putBit false (setRun (increment s.eng.run) s) with - | d
    · simp only [Option.map_none, bystander_raiseError hf]
    · simp only [Option.map_some, bystander_setRun hf, bystander_nextInputBit hf]
  · rw [bystander_nextInputBit hf]

/-- An engine step commutes with every bystander. -/
theorem bystander_engineStep (hf : Bystander f) (s : State) : engineStep (f s) = f (engineStep s) := by
  simp only [engineStep, hf.eng]
  split
  · simp only [encStep, hf.eng, bystander_getBit hf, bystander_putBit hf, bystander_complete hf]
    split
    · rfl
    · rcases putBit (getBit s) s with - | c
      · simp only [Option.map_none, bystander_raiseError hf]
      · simp only [Option.map_some, bystander_countOne hf, bystander_setRun hf, bystander_nextInputBit hf]
        split <;> rfl
  · simp only [decStep, hf.eng, bystander_getBit hf, bystander_putBit hf, bystander_complete hf,
      bystander_raiseError hf, bystander_setRun hf, bystander_nextInputBit hf]
    split
    · split <;> rfl
    · split
      · split <;> rfl
      · rcases putBit (getBit s) s with - | c
        · simp only [Option.map_none]
        · simp only [Option.map_some, hf.eng, bystander_setRun hf, bystander_nextInputBit hf]

/-- Moving the agenda on is a bystander of the engine. -/
theorem bystander_setAgenda (rest : List Agent) : Bystander (setAgenda rest) where
  eng _ := rfl
  mem _ := rfl
  setEngine _ _ := rfl
  storeByte _ _ _ := rfl
  forgetWindow _ _ := rfl
  setResult _ _ _ := rfl

end Sys2Proof.Machine
end

