-- ==== Sys2Proof/WellFormed.lean ====
section
/-! DEFINITION. Which terms of the syntax the spec gives a meaning, as Bool checks. -/

namespace Sys2Proof

/-- Every command word is legal: all four OP values and all values of A have a meaning (30_encoding.md R74, R78, R79). -/
def instrWf (i : Instr) : Bool :=
  match i with
  | .nop _ => true
  | .encode _ => true
  | .decode _ => true
  | .reserved _ => true

/-- "Software should write A as 0" (R74). Advice to software only: no meaning and no statement asks for it. -/
def instrConforming (i : Instr) : Bool := ignoredOf i == 0

/-- A host line is well formed when its register access has the shape of R71 (for a block at REG_BASE = `base`) and its
branch goes to a line of a program of `len` lines, or to its end (R80). -/
def hostOpWf (base len : Nat) (op : HostOp) : Bool :=
  match op with
  | .memWrite _ _ => true
  | .memRead _ _ => true
  | .busWrite width addr _ => (busRegister base width addr).isSome
  | .busRead width addr _ => (busRegister base width addr).isSome
  | .branchNonZero _ _ label => label ≤ len

/-- A host program is well formed when all its lines are. -/
def programWf (base : Nat) (prog : List HostOp) : Bool := prog.all (hostOpWf base prog.length)

end Sys2Proof
end

