-- ==== Sys2Proof/Laws/PerInstr.lean ====
section
/-! SUPPORT. Laws stated of every command as syntax, one lemma per constructor of Instr. -/

namespace Sys2Proof.Laws

/-- The encoding puts OP in bits [1:0] and field A in bits [31:2] of the word, and the command is well formed (30_encoding.md
R74, R75, R79). -/
def FieldPlaces.Statement (i : Instr) : Prop :=
  opField (encode i) = opOf i ∧ ignoredField (encode i) = ignoredOf i ∧ instrWf i = true

theorem FieldPlaces.of_append {i : Instr} (h : instrWf i = true) : FieldPlaces.Statement i := by
  refine ⟨?_, ?_, h⟩
  · exact BitVec.extractLsb'_append_eq_right
  · exact BitVec.extractLsb'_append_eq_left

theorem FieldPlaces.nop (a : BitVec 30) : FieldPlaces.Statement (.nop a) := FieldPlaces.of_append rfl
theorem FieldPlaces.encode (a : BitVec 30) : FieldPlaces.Statement (.encode a) := FieldPlaces.of_append rfl
theorem FieldPlaces.decode (a : BitVec 30) : FieldPlaces.Statement (.decode a) := FieldPlaces.of_append rfl
theorem FieldPlaces.reserved (a : BitVec 30) : FieldPlaces.Statement (.reserved a) := FieldPlaces.of_append rfl

end Sys2Proof.Laws
end

