-- ==== Sys2Proof/Machine/Program.lean ====
section
/-! DEFINITION. The host notation of 30_encoding.md R80 with register names, and the pseudo-instructions of R81, as lines of
a host program for a block at REG_BASE = `base`. -/

namespace Sys2Proof.Machine

/-- `WR REG, w`: "32-bit write to REG_BASE + off(REG)". -/
def lineWr (base : Nat) (r : Reg) (w : Word) : HostOp := .busWrite 4 (busAddress base r) w

/-- `RD REG -> t`: "32-bit read of REG_BASE + off(REG)". -/
def lineRd (base : Nat) (r : Reg) (t : Nat) : HostOp := .busRead 4 (busAddress base r) t

/-- `NOP` is `WR CMD, 0x00000000`. -/
def pseudoNop (base : Nat) : HostOp := lineWr base .cmd 0x00000000

/-- `ENC` is `WR CMD, 0x00000001`. -/
def pseudoEnc (base : Nat) : HostOp := lineWr base .cmd 0x00000001

/-- `DEC` is `WR CMD, 0x00000002`. -/
def pseudoDec (base : Nat) : HostOp := lineWr base .cmd 0x00000002

/-- `WAIT t`, the poll loop, where `here` is the index of its first line. -/
def pseudoWait (base here t : Nat) : List HostOp := [lineRd base .status t, .branchNonZero t 1 here]

/-- What CALL_ENCODE and CALL_DECODE share: the operand writes, the command, the poll loop; `here` is the index of the
first line. -/
def pseudoCall (base here : Nat) (command : HostOp) (inAddr n k out cap : Word) (t : Nat) : List HostOp :=
  [lineWr base .inAddr inAddr, lineWr base .inLen n, lineWr base .k k, lineWr base .outAddr out,
    lineWr base .outCap cap, command] ++ pseudoWait base (here + 6) t

/-- `CALL_ENCODE in, n, k, out, cap`. -/
def pseudoCallEncode (base here : Nat) (inAddr n k out cap : Word) (t : Nat) : List HostOp :=
  pseudoCall base here (pseudoEnc base) inAddr n k out cap t

/-- `CALL_DECODE in, n, k, out, cap`. -/
def pseudoCallDecode (base here : Nat) (inAddr n k out cap : Word) (t : Nat) : List HostOp :=
  pseudoCall base here (pseudoDec base) inAddr n k out cap t

end Sys2Proof.Machine
end

