-- ==== Sys2Proof/Tests/Slice0.lean ====
section
/-! SUPPORT. The model's own tests, their expected values taken from spec/ (30_encoding.md, 95_test_vectors.md), and for
every obligation with hypotheses a concrete witness that meets them together. -/

namespace Sys2Proof.Tests

open Sys2Proof.Machine

/-! ## Small states -/

/-- Vector E3 of 95_test_vectors.md before its start: K = 5, 8 input bits `00111110`, OUT_CAP = 2. -/
def readyEncode : State :=
  { State.reset with inAddr := 0x1000, inLen := 8, outAddr := 0x2000, outCap := 2, mem := [(0x1000, 0x3E)] }

/-- Vector D2 before its start: 9 input bits `001111100`. -/
def readyDecode : State := { readyEncode with inLen := 9 }

/-- Vector E4 (`11111`, OUT_CAP = `cap`) when `i` ones have been copied and counted. -/
def encodingOnes (i : Nat) (acc : Byte) (cap : Nat) : State :=
  { readyEncode with
    status := 0x1
    mem := [(0x1000, 0xF8), (0x2000, acc)]
    eng := { op := .enc, k := 5, n := 5, inAddr := 0x1000, outAddr := 0x2000, capBits := BitVec.ofNat 35 (8 * cap),
             i := BitVec.ofNat 32 i, o := BitVec.ofNat 32 i, run := BitVec.ofNat 32 i, acc := acc } }

/-- Vectors D3 to D5 (six bits: five ones, then the top bits of `input`) when five ones have been copied. -/
def decodingOnes (input : Byte) (n : Nat) : State :=
  { readyEncode with
    status := 0x1
    mem := [(0x1000, input), (0x2000, 0xF8)]
    eng := { op := .dec, k := 5, n := BitVec.ofNat 32 n, inAddr := 0x1000, outAddr := 0x2000, capBits := 8,
             i := 5, o := 5, run := 5, acc := 0xF8 } }

/-- One value read off a next state. -/
def ofNext {α : Type} (f : State → α) (out : Host.Outcome State Fault Refusal) : Option α :=
  match out with
  | .next t => some (f t)
  | .fault _ => none
  | .refused _ => none

/-- The refusal, where there is one. -/
def refusalOf (out : Host.Outcome State Fault Refusal) : Option Refusal :=
  match out with
  | .next _ => none
  | .fault _ => none
  | .refused r => some r

/-! ## Encodings, written out from 30_encoding.md R74, R75 and 95_test_vectors.md R-5 -/

theorem test_decode_nop : decodeBits 32 0x00000000 = .ok (.nop 0) := by decide
theorem test_decode_encode : decodeBits 32 0x00000001 = .ok (.encode 0) := by decide
theorem test_decode_decode : decodeBits 32 0x00000002 = .ok (.decode 0) := by decide
theorem test_decode_reserved : decodeBits 32 0x00000003 = .ok (.reserved 0) := by decide
theorem test_decode_ignored_bits : decodeBits 32 0xFFFFFFFD = .ok (.encode 0x3FFFFFFF) := by decide
theorem test_decode_rejects_halfword : decodeBits 16 0x0001 = .error .notOneWord := by decide
theorem test_decode_rejects_wide : decodeBits 32 0x100000000 = .error .tooWide := by decide
theorem test_encode_words :
    encode (.encode 0) = 0x1 ∧ encode (.decode 0) = 0x2 ∧ encode (.nop 1) = 0x4 ∧ encode (.reserved 0) = 0x3 := by decide
theorem test_table_words :
    decodeTableWord 8 0 = some (.nop 0) ∧ decodeTableWord 8 1 = some (.encode 0) ∧
      decodeTableWord 32 2 = some (.decode 0) ∧ decodeTableWord 32 3 = some (.reserved 0) ∧
      decodeTableWord 40 0 = none := by decide
theorem test_register_offsets :
    busRegister 0x40 4 0x40 = some .cmd ∧ busRegister 0x40 4 0x44 = some .status ∧
      busRegister 0x40 4 0x48 = some .k ∧ busRegister 0x40 4 0x4C = some .inAddr ∧
      busRegister 0x40 4 0x50 = some .inLen ∧ busRegister 0x40 4 0x54 = some .outAddr ∧
      busRegister 0x40 4 0x58 = some .outCap ∧ busRegister 0x40 4 0x5C = some .outLen := by decide

/-! ## WellFormed: an ill-formed term for each check -/

theorem test_wf_commands : instrWf (.nop 5) = true ∧ instrWf (.reserved 0) = true := by decide
theorem test_conforming_refuses_ignored_bits : instrConforming (.encode 1) = false := by decide
theorem test_wf_refuses_halfword : hostOpWf 0 1 (.busRead 2 0x04 0) = false := by decide
theorem test_wf_refuses_misaligned : hostOpWf 0 1 (.busRead 4 0x06 0) = false := by decide
theorem test_wf_refuses_high_offset : hostOpWf 0 1 (.busWrite 4 0x20 0) = false := by decide
theorem test_wf_refuses_below_base : hostOpWf 0x40 1 (.busWrite 4 0x3C 0) = false := by decide
theorem test_wf_refuses_branch_out : programWf 0 [.branchNonZero 0 1 2] = false := by decide
theorem test_wf_call_encode : programWf 0x40 (pseudoCallEncode 0x40 0 0x1000 64 5 0x2000 9 0) = true := by decide
theorem test_call_decode_lines :
    pseudoCallDecode 0 0 0x2000 68 5 0x3000 8 0 =
      [.busWrite 4 0x0C 0x2000, .busWrite 4 0x10 68, .busWrite 4 0x08 5, .busWrite 4 0x14 0x3000,
        .busWrite 4 0x18 8, .busWrite 4 0x00 2, .busRead 4 0x04 0, .branchNonZero 0 1 6] := by decide

/-! ## Commands -/

/-- 40_command.md R101, the example. -/
theorem test_nop_keeps_result :
    ofNext (fun t => (t.status, t.outLen)) (exec (.nop 0) { State.reset with status := 2, outLen := 68 }) =
      some (2, 68) := by decide
/-- R-4. -/
theorem test_reserved :
    ofNext (fun t => (t.status, t.outLen)) (exec (.reserved 0) { State.reset with status := 2, outLen := 19 }) =
      some (0xE, 0) := by decide
/-- R-6. -/
theorem test_encode_starts :
    ofNext (fun t => (t.status, t.outLen, t.eng.capBits, t.eng.n)) (exec (.encode 0) readyEncode) =
      some (0x1, 0, 16, 8) := by decide
/-- E24: the largest legal N at K = 5, and the next. -/
theorem test_encode_length_bound :
    paramOk .enc { State.reset with inLen := 3579139405 } = true ∧
      ofNext State.status (exec (.encode 0) { State.reset with inLen := 3579139406 }) = some 0xE := by decide
/-- D17: DECODE has no length check. -/
theorem test_decode_starts :
    ofNext (fun t => (t.status, t.eng.n)) (exec (.decode 0) { State.reset with inLen := 0xFFFFFFFF }) =
      some (0x1, 0xFFFFFFFF) := by decide
/-- D16. -/
theorem test_decode_k_zero :
    ofNext State.status (exec (.decode 0) { readyDecode with k := 0 }) = some 0xE := by decide
theorem test_start_overlap :
    refusalOf (exec (.encode 0) { readyEncode with outAddr := 0x0FFF }) = some .windowOverlap := by decide
theorem test_start_not_memory :
    refusalOf (exec (.encode 0) { readyEncode with platform := { regBase := 0, devices := [⟨0x2001, 1⟩] } }) =
      some .notMemory := by decide

/-! ## Engine steps -/

/-- 00_scope.md R8: bit 0 is the MSB. -/
theorem test_bits_msb_first :
    seqBits readyEncode.mem 0x1000 8 = [false, false, true, true, true, true, true, false] := by decide
/-- E4, fifth step: the fifth one is copied and the stuff bit follows it. -/
theorem test_encode_step_stuffs :
    (fun t => (t.eng.o, t.eng.run, t.eng.i, memRead t.mem 0x2000)) (engineStep (encodingOnes 4 0xF0 1)) =
      (6, 0, 5, 0xF8) := by decide
/-- E12b: zero capacity. -/
theorem test_encode_step_capacity :
    (fun t => (t.status, t.outLen)) (engineStep (encodingOnes 0 0 0)) = (0x6, 0) := by decide
/-- D3, sixth step: the stuff bit is consumed and not written. -/
theorem test_decode_step_drops :
    (fun t => (t.eng.o, t.eng.run, t.eng.i, t.status)) (engineStep (decodingOnes 0xF8 6)) = (5, 0, 6, 1) := by decide
/-- D5 (sixth step) and D4 (completion step). -/
theorem test_decode_step_malformed :
    (engineStep (decodingOnes 0xFC 6)).status = 0xA ∧ (engineStep (decodingOnes 0xF8 5)).status = 0xA := by decide
/-- S1: the source's vector, as a function. -/
theorem test_stuffing_of_source_vector :
    (encBits 5 (seqBits [(0, 0x3E), (1, 0x2A), (2, 0xBF), (3, 0xA8), (4, 0xF0), (5, 0x3F), (6, 0xAF), (7, 0x80)] 0 64)) =
      seqBits [(0, 0x3E), (1, 0x15), (2, 0x5F), (3, 0x6A), (4, 0x3C), (5, 0x0F), (6, 0xB5), (7, 0xF0)] 0 68 := by decide
/-- E6 and D12. -/
theorem test_transform_vectors :
    encBits 5 (List.replicate 10 true) =
        [true, true, true, true, true, false, true, true, true, true, true, false] ∧
      wellFormedStuffed 5 [false, true, true, true, true, true, true, false] = false := by decide

/-! ## Host, reset, step -/

/-- R-10. -/
theorem test_register_write_read :
    ofNext (regRead .k) (hostOp (.busWrite 4 0x08 0xDEADBEEF) State.reset) = some 0xDEADBEEF := by decide
/-- R-9. -/
theorem test_read_only_registers :
    ofNext (fun t => (t.status, t.outLen)) (hostOp (.busWrite 4 0x04 0xFFFFFFFF) State.reset) = some (0, 0) := by decide
/-- R-13. -/
theorem test_refused_shapes :
    refusalOf (hostOp (.busRead 2 0x04 0) State.reset) = some .regAccessShape ∧
      refusalOf (hostOp (.busRead 4 0x06 0) State.reset) = some .regAccessShape ∧
      refusalOf (hostOp (.busRead 4 0x20 0) State.reset) = some .regAccessShape := by decide
theorem test_memory_write_read :
    ofNext (fun t => tempRead t 3) (hostOp (.memRead 0x1000 3) readyEncode) = some 0x3E := by decide
theorem test_input_window_hazard :
    refusalOf (hostOp (.memWrite 0x1000 0) (encodingOnes 4 0xF0 1)) = some .inputWrittenWhileBusy ∧
      refusalOf (hostOp (.memWrite 0x2000 0) (encodingOnes 4 0xF0 1)) = some .outputWrittenWhileBusy := by decide
theorem test_branch :
    ofNext (fun t => t.host.pc) (hostOp (.branchNonZero 0 1 7) (tempWrite 0 1 State.reset)) = some 7 := by decide
/-- R-11. -/
theorem test_reset_while_busy :
    (fun t => (t.status, t.k, memRead t.mem 0x1000)) (resetStep { encodingOnes 4 0xF0 0 with k := 1 }) =
      (0, 5, 0xF8) := by decide
/-- The four table words as the first command after reset. -/
theorem test_fetched_commands :
    ofNext State.status (step (State.reset.withFetchWord 32 0)) = some 0 ∧
      ofNext State.status (step (State.reset.withFetchWord 32 1)) = some 1 ∧
      ofNext State.status (step (State.reset.withFetchWord 8 2)) = some 1 ∧
      ofNext State.status (step (State.reset.withFetchWord 8 3)) = some 0xE := by decide

/-! ## Witnesses: the hypotheses of each obligation, met together -/

theorem readyEncode_windows : WindowsOk readyEncode :=
  ⟨windowsOverlap_eq_false_iff.1 (by decide), windowOrdinary_iff.1 (by decide), windowOrdinary_iff.1 (by decide)⟩

theorem readyDecode_windows : WindowsOk readyDecode :=
  ⟨windowsOverlap_eq_false_iff.1 (by decide), windowOrdinary_iff.1 (by decide), windowOrdinary_iff.1 (by decide)⟩

theorem readyEncode_params : ParamsOk .enc readyEncode := paramOk_iff.1 (by decide)
theorem readyEncode_params_dec : ParamsOk .dec readyEncode := paramOk_iff.1 (by decide)
theorem readyDecode_params : ParamsOk .dec readyDecode := paramOk_iff.1 (by decide)

theorem readyEncode_inv : MachineInv readyEncode := by decide
theorem encoding4_inv : MachineInv (encodingOnes 4 0xF0 1) := by decide
theorem encoding3_inv : MachineInv (encodingOnes 3 0xE0 1) := by decide
theorem encodingZero_inv : MachineInv { encodingOnes 3 0xE0 1 with mem := [(0x1000, 0xE8), (0x2000, 0xE0)] } := by decide
theorem decodingStuff_inv : MachineInv (decodingOnes 0xF8 6) := by decide
theorem decodingBad_inv : MachineInv (decodingOnes 0xFC 6) := by decide

theorem witness_NopHasNoEffect : (0xFFFFFFFC : Word).extractLsb' 0 2 = 0 := by decide
theorem witness_CommandDependsOnOpAlone :
    (0x00000001 : Word).extractLsb' 0 2 = (0xFFFFFFFD : Word).extractLsb' 0 2 := by decide
theorem witness_CommandIgnoredWhileBusy : busy (encodingOnes 4 0xF0 1) = true := by decide
theorem witness_ReservedOpReportsInvalidParameter :
    busy State.reset = false ∧ busy (encodingOnes 4 0xF0 1) = true ∧ (0x00000007 : Word).extractLsb' 0 2 = 3 := by decide
theorem witness_EncodeStartLatchesOperands :
    busy readyEncode = false ∧ ParamsOk .enc readyEncode ∧ WindowsOk readyEncode :=
  ⟨by decide, readyEncode_params, readyEncode_windows⟩
theorem witness_DecodeStartLatchesOperands :
    busy readyDecode = false ∧ ParamsOk .dec readyDecode ∧ WindowsOk readyDecode :=
  ⟨by decide, readyDecode_params, readyDecode_windows⟩
theorem witness_InvalidParameterStartTouchesNothingElse :
    busy { readyEncode with k := 0 } = false ∧ ({ readyEncode with k := 0 } : State).k = 0 ∧
      busy { readyEncode with inLen := 3579139406 } = false ∧
      2 ^ 32 - 1 < ({ readyEncode with inLen := 3579139406 } : State).inLen.toNat +
        (({ readyEncode with inLen := 3579139406 } : State).inLen.toNat + readyEncode.k.toNat - 1) /
          readyEncode.k.toNat + 8 := by decide
theorem witness_OverlappingStartIsRefused :
    busy { readyEncode with outAddr := 0x0FFF } = false ∧
      windowHas (operandInWindow { readyEncode with outAddr := 0x0FFF }) 0x1000 = true ∧
      windowHas (operandOutWindow { readyEncode with outAddr := 0x0FFF }) 0x1000 = true ∧
      ParamsOk .enc { readyEncode with outAddr := 0x0FFF } ∧ ParamsOk .dec { readyEncode with outAddr := 0x0FFF } :=
  ⟨by decide, by decide, by decide, readyEncode_params, readyEncode_params_dec⟩

/-- E3's operands on a platform whose address 0x2001 is a device. -/
def deviceInOutput : State := { readyEncode with platform := { regBase := 0, devices := [⟨0x2001, 1⟩] } }

theorem witness_NonOrdinaryStartIsRefused :
    busy deviceInOutput = false ∧
      WindowsDisjoint (operandInWindow deviceInOutput) (operandOutWindow deviceInOutput) ∧
      windowHas (operandOutWindow deviceInOutput) 0x2001 = true ∧
      memOrdinary deviceInOutput.platform 0x2001 = false ∧
      ParamsOk .enc deviceInOutput ∧ ParamsOk .dec deviceInOutput :=
  ⟨by decide, readyEncode_windows.1, by decide, by decide, readyEncode_params, readyEncode_params_dec⟩
/-- The same with a device under the input window. -/
theorem witness_NonOrdinaryStartIsRefused_input :
    windowHas (operandInWindow readyEncode) 0x1000 = true ∧
      memOrdinary { regBase := 0, devices := [⟨0x1000, 1⟩] } 0x1000 = false := by decide
theorem witness_CommandFrame :
    exec (.encode 0) readyEncode =
      .next (setResult statusRunning 0 (setEngine (latched .enc readyEncode) readyEncode)) :=
  (unlessBusy_of_idle (by decide)).trans (start_of_ok readyEncode_params readyEncode_windows)
theorem witness_EncodeLengthBounds :
    ({ readyEncode with k := 5 } : State).k = 5 ∧ ({ readyEncode with k := 1 } : State).k = 1 ∧
      ({ readyEncode with k := 0xFFFFFFFF } : State).k = 0xFFFFFFFF := by decide

/-- E3's operands with a CMD write as the host's first line. -/
def aboutToWrite : State := placeHostOp (.busWrite 4 (0 + regOffset .cmd) 1) readyEncode

theorem witness_StepRunsDecodedCommand :
    aboutToWrite.host.prog[aboutToWrite.host.pc]? =
        some (.busWrite 4 (aboutToWrite.platform.regBase + regOffset .cmd) 1) ∧
      decodeBits 32 (1 : Word).toNat = .ok (.encode 0) ∧ aboutToWrite.agenda = .host :: [] ∧
      ({ aboutToWrite with agenda := [] } : State).agenda = [] ∧
      busy { aboutToWrite with agenda := [] } = false := by decide
/-- Any other line: a byte write, with the host named and with none named. -/
theorem witness_StepRunsDecodedCommand_line :
    let t := placeHostOp (.memWrite 0x1000 0x3E) readyEncode
    t.host.prog[t.host.pc]? = some (.memWrite 0x1000 0x3E) ∧ t.agenda = .host :: [] ∧
      ({ t with agenda := [] } : State).agenda = [] ∧ busy { t with agenda := [] } = false := by decide
theorem witness_EngineStepsExactlyWhileBusy :
    ({ encodingOnes 4 0xF0 1 with agenda := [.engine] } : State).agenda = .engine :: [] ∧
      busy { encodingOnes 4 0xF0 1 with agenda := [.engine] } = true ∧
      ({ readyEncode with agenda := [.engine] } : State).agenda = .engine :: [] ∧
      busy { readyEncode with agenda := [.engine] } = false ∧ (encodingOnes 4 0xF0 1).agenda = [] := by decide
theorem witness_EngineTurnsAreMachineSteps :
    ({ encodingOnes 4 0xF0 1 with agenda := [.engine, .engine, .host] } : State).agenda =
      List.replicate 2 .engine ++ [.host] := by decide
theorem witness_IdleMachineRests :
    State.reset.agenda = [] ∧ busy State.reset = false ∧ State.reset.host.prog.length ≤ State.reset.host.pc := by decide
theorem witness_CompletionStepReportsLength :
    busy (encodingOnes 5 0xF8 1) = true ∧ (encodingOnes 5 0xF8 1).eng.i = (encodingOnes 5 0xF8 1).eng.n ∧
      ((encodingOnes 5 0xF8 1).eng.op = .dec → (encodingOnes 5 0xF8 1).eng.run ≠ (encodingOnes 5 0xF8 1).eng.k) := by
  decide
/-- A running ENCODE about to copy its fifth one and stuff. -/
theorem witness_EncodeStepCopiesAndStuffs :
    MachineInv (encodingOnes 4 0xF0 1) ∧ busy (encodingOnes 4 0xF0 1) = true ∧ (encodingOnes 4 0xF0 1).eng.op = .enc ∧
      (encodingOnes 4 0xF0 1).eng.i ≠ (encodingOnes 4 0xF0 1).eng.n ∧
      (encodingOnes 4 0xF0 1).eng.o.toNat < (encodingOnes 4 0xF0 1).eng.capBits.toNat ∧
      (encodingOnes 4 0xF0 1).eng.o.toNat + 2 ≤ (encodingOnes 4 0xF0 1).eng.capBits.toNat ∧
      seqBit (encodingOnes 4 0xF0 1).mem 0x1000 4 = true ∧
      (encodingOnes 4 0xF0 1).eng.run.toNat + 1 = (encodingOnes 4 0xF0 1).eng.k.toNat :=
  ⟨encoding4_inv, by decide, by decide, by decide, by decide, by decide, by decide, by decide⟩
/-- The same clauses with a one that is not the K-th, and with a zero. -/
theorem witness_EncodeStepCopiesAndStuffs_copy :
    MachineInv (encodingOnes 3 0xE0 1) ∧ busy (encodingOnes 3 0xE0 1) = true ∧
      seqBit (encodingOnes 3 0xE0 1).mem 0x1000 3 = true ∧
      (encodingOnes 3 0xE0 1).eng.run.toNat + 1 ≠ (encodingOnes 3 0xE0 1).eng.k.toNat ∧
      MachineInv { encodingOnes 3 0xE0 1 with mem := [(0x1000, 0xE8), (0x2000, 0xE0)] } ∧
      seqBit ({ encodingOnes 3 0xE0 1 with mem := [(0x1000, 0xE8), (0x2000, 0xE0)] } : State).mem 0x1000 3 = false :=
  ⟨encoding3_inv, by decide, by decide, by decide, encodingZero_inv, by decide⟩
/-- A running ENCODE of `00011111` whose last one fills the one output byte, so that its stuff bit has no room. -/
def encodingFull : State :=
  { encodingOnes 4 0x1E 1 with
    mem := [(0x1000, 0x1F), (0x2000, 0x1E)]
    eng := { (encodingOnes 4 0x1E 1).eng with n := 8, i := 7, o := 7 } }

theorem encodingFull_inv : MachineInv encodingFull := by decide

theorem witness_EncodeStepCopiesAndStuffs_full :
    MachineInv encodingFull ∧ busy encodingFull = true ∧ encodingFull.eng.op = .enc ∧
      encodingFull.eng.i ≠ encodingFull.eng.n ∧ encodingFull.eng.o.toNat < encodingFull.eng.capBits.toNat ∧
      seqBit encodingFull.mem 0x1000 7 = true ∧ encodingFull.eng.run.toNat + 1 = encodingFull.eng.k.toNat ∧
      encodingFull.eng.o.toNat + 1 = encodingFull.eng.capBits.toNat :=
  ⟨encodingFull_inv, by decide, by decide, by decide, by decide, by decide, by decide, by decide⟩
theorem witness_DecodeStepDropsStuffBits :
    MachineInv (decodingOnes 0xF8 6) ∧ busy (decodingOnes 0xF8 6) = true ∧ (decodingOnes 0xF8 6).eng.op = .dec ∧
      (decodingOnes 0xF8 6).eng.i ≠ (decodingOnes 0xF8 6).eng.n ∧
      (decodingOnes 0xF8 6).eng.run = (decodingOnes 0xF8 6).eng.k ∧
      seqBit (decodingOnes 0xF8 6).mem 0x1000 5 = false ∧
      MachineInv (decodingOnes 0xFC 6) ∧ seqBit (decodingOnes 0xFC 6).mem 0x1000 5 = true :=
  ⟨decodingStuff_inv, by decide, by decide, by decide, by decide, by decide, decodingBad_inv, by decide⟩

/-- A running DECODE that has copied four ones and has a data bit to copy. -/
def decodingData : State :=
  { decodingOnes 0xF8 6 with
    mem := [(0x1000, 0xF8), (0x2000, 0xF0)]
    eng := { (decodingOnes 0xF8 6).eng with i := 4, o := 4, run := 4, acc := 0xF0 } }

theorem decodingData_inv : MachineInv decodingData := by decide

theorem witness_DecodeStepDropsStuffBits_data :
    MachineInv decodingData ∧ busy decodingData = true ∧ decodingData.eng.op = .dec ∧
      decodingData.eng.i ≠ decodingData.eng.n ∧ decodingData.eng.run ≠ decodingData.eng.k ∧
      decodingData.eng.o.toNat < decodingData.eng.capBits.toNat :=
  ⟨decodingData_inv, by decide, by decide, by decide, by decide, by decide⟩
theorem witness_FullOutputRaisesCapacityExceeded :
    busy (encodingOnes 0 0 0) = true ∧ (encodingOnes 0 0 0).eng.i ≠ (encodingOnes 0 0 0).eng.n ∧
      (encodingOnes 0 0 0).eng.capBits.toNat ≤ (encodingOnes 0 0 0).eng.o.toNat ∧
      ((encodingOnes 0 0 0).eng.op = .dec → (encodingOnes 0 0 0).eng.run ≠ (encodingOnes 0 0 0).eng.k) := by decide
theorem witness_EndAfterCountedOnesIsMalformed :
    busy (decodingOnes 0xF8 5) = true ∧ (decodingOnes 0xF8 5).eng.op = .dec ∧
      (decodingOnes 0xF8 5).eng.i = (decodingOnes 0xF8 5).eng.n ∧
      (decodingOnes 0xF8 5).eng.run = (decodingOnes 0xF8 5).eng.k := by decide
theorem witness_ErrorEntryEffects :
    memoryWf (encodingOnes 4 0xF0 1).mem = true ∧ 0 < (encodingOnes 4 0xF0 1).eng.capBits.toNat / 8 ∧
      windowHas (outWindow (encodingOnes 4 0xF0 1).eng) 0x2001 = false := by decide
theorem witness_EngineWritesOnlyOutputWindow :
    MachineInv (encodingOnes 4 0xF0 1) ∧ busy (encodingOnes 4 0xF0 1) = true ∧
      windowHas (outWindow (encodingOnes 4 0xF0 1).eng) 0x2001 = false ∧
      windowHas (inWindow (encodingOnes 4 0xF0 1).eng) 0x1000 = true :=
  ⟨encoding4_inv, by decide, by decide, by decide⟩
/-- The memories differ in the last input byte's unused bits and elsewhere. -/
theorem witness_EngineReadsOnlyInputBits :
    memoryWf (encodingOnes 4 0xF0 1).mem = true ∧ memoryWf [(0x1000, 0xFF), (0x3000, 1)] = true ∧
      (encodingOnes 4 0xF0 1).eng.i.toNat ≤ (encodingOnes 4 0xF0 1).eng.n.toNat ∧
      ∀ j < (encodingOnes 4 0xF0 1).eng.n.toNat,
        seqBit [(0x1000, 0xFF), (0x3000, 1)] 0x1000 j = seqBit (encodingOnes 4 0xF0 1).mem 0x1000 j := by decide
theorem witness_EncodeNeverMalformed :
    busy (encodingOnes 5 0xF8 1) = true ∧ (encodingOnes 5 0xF8 1).eng.op = .enc ∧
      (engineStep (encodingOnes 5 0xF8 1)).status ≠ (encodingOnes 5 0xF8 1).status := by decide
theorem witness_RegisterReadGivesValue :
    cellsWf 0 readyEncode.host.temps = true ∧ StatusLegal readyEncode.status := by decide
theorem witness_OtherAccessShapesAreRefused :
    ∀ r : Reg, ¬ ((2 : Nat) = 4 ∧ (4 : Nat) = readyEncode.platform.regBase + regOffset r) ∧
      ¬ ((4 : Nat) = 4 ∧ (0x20 : Nat) = readyEncode.platform.regBase + regOffset r) := by
  intro r
  cases r <;> decide
theorem witness_OperandWritesDoNotReachRunningOperation : busy (encodingOnes 4 0xF0 1) = true := by decide
theorem witness_InputWindowHazard :
    MachineInv (encodingOnes 4 0xF0 1) ∧ busy (encodingOnes 4 0xF0 1) = true ∧
      windowHas (inWindow (encodingOnes 4 0xF0 1).eng) 0x1000 = true :=
  ⟨encoding4_inv, by decide, by decide⟩
theorem witness_OutputWindowHazard :
    MachineInv (encodingOnes 4 0xF0 1) ∧ busy (encodingOnes 4 0xF0 1) = true ∧
      windowHas (outWindow (encodingOnes 4 0xF0 1).eng) 0x2000 = true :=
  ⟨encoding4_inv, by decide, by decide⟩
/-- The first byte after each window of a running operation. -/
theorem witness_HostMemoryAccessOutsideWindows :
    MachineInv (encodingOnes 4 0xF0 1) ∧ busy (encodingOnes 4 0xF0 1) = true ∧
      windowHas (inWindow (encodingOnes 4 0xF0 1).eng) 0x1001 = false ∧
      windowHas (outWindow (encodingOnes 4 0xF0 1).eng) 0x1001 = false ∧
      windowHas (inWindow (encodingOnes 4 0xF0 1).eng) 0x2001 = false ∧
      windowHas (outWindow (encodingOnes 4 0xF0 1).eng) 0x2001 = false ∧
      memOrdinary (encodingOnes 4 0xF0 1).platform 0x2001 = true :=
  ⟨encoding4_inv, by decide, by decide, by decide, by decide, by decide, by decide⟩
/-- The same clauses while idle, at an address that was in a window while busy. -/
theorem witness_HostMemoryAccessOutsideWindows_idle :
    MachineInv readyEncode ∧ busy readyEncode = false ∧ memOrdinary readyEncode.platform 0x1000 = true :=
  ⟨readyEncode_inv, by decide, by decide⟩
theorem witness_BranchFollowsMaskedTemporary :
    tempRead (tempWrite 0 1 State.reset) 0 &&& 1 ≠ 0 ∧ tempRead State.reset 0 &&& 1 = 0 := by decide
theorem witness_HostCannotDisturbRunningOperation :
    busy (encodingOnes 4 0xF0 1) = true ∧ hostTurn (encodingOnes 4 0xF0 1) = .next (encodingOnes 4 0xF0 1) ∧
      windowHas (inWindow (encodingOnes 4 0xF0 1).eng) 0x1000 = true := ⟨by decide, rfl, by decide⟩
theorem witness_ResultKeptUntilNextStart :
    busy readyEncode = false ∧ hostOp (.busWrite 4 0 0) readyEncode = .next readyEncode ∧
      ∀ w : Word, (HostOp.busWrite 4 0 0) = .busWrite 4 (readyEncode.platform.regBase + regOffset .cmd) w →
        w.extractLsb' 0 2 = 0 := by
  refine ⟨by decide, rfl, fun w h => ?_⟩
  obtain rfl : (0 : Word) = w := by injection h
  decide
theorem witness_ResetStepSetsRegisters :
    ({ encodingOnes 4 0xF0 1 with agenda := [.reset] } : State).agenda = .reset :: [] := by decide
theorem witness_ResetMemoryEffects :
    MachineInv readyEncode ∧ busy readyEncode = false ∧ MachineInv (encodingOnes 4 0xF0 1) ∧
      busy (encodingOnes 4 0xF0 1) = true ∧ 0 < (encodingOnes 4 0xF0 1).eng.capBits.toNat / 8 ∧
      windowHas (inWindow (encodingOnes 4 0xF0 1).eng) 0x1000 = true ∧
      windowHas (outWindow (encodingOnes 4 0xF0 1).eng) 0x2001 = false :=
  ⟨readyEncode_inv, by decide, encoding4_inv, by decide, by decide, by decide, by decide⟩
theorem witness_StepKeepsInvariant :
    MachineInv (encodingOnes 4 0xF0 1) ∧
      step (encodingOnes 4 0xF0 1) = .next (engineStep (encodingOnes 4 0xF0 1)) := ⟨by decide, rfl⟩
theorem witness_OperationEndsWithinBound :
    MachineInv (encodingOnes 4 0xF0 1) ∧ busy (encodingOnes 4 0xF0 1) = true :=
  ⟨encoding4_inv, by decide⟩
theorem witness_UnstuffingInvertsStuffing : 1 ≤ 1 ∧ encBits 1 [true, false] = [true, false, false] := by decide
/-- A run between zeros, and one that is the whole sequence. -/
theorem witness_StuffedLengthLaw :
    1 ≤ 5 ∧ onesRuns [true, true, false, true] = [2, 1] ∧
      [true, false, true, true, false] = ([] ++ [true] ++ [false, true, true, false] : List Bool) ∧
      [true, false, true, true, false] = [true, false] ++ List.replicate 2 true ++ [false] ∧
      [true, false] = [true] ++ [false] ∧ [true, true] = [] ++ List.replicate 2 true ++ [] := by decide
theorem witness_AllOnesIsWorstCase : 1 ≤ 2 ∧ [true, false, true].length = 3 := by decide
theorem witness_StuffedRunsAreBounded : 1 ≤ 2 ∧ onesRuns (encBits 2 [true, true, true]) = [2, 1] := by decide
theorem witness_WellFormedIsExactlyStuffed :
    1 ≤ 5 ∧ wellFormedStuffed 5 [true, true, true, true, true, false] = true ∧
      [true, true, true, true, true, false] = encBits 5 (List.replicate 5 true) := by decide
theorem witness_DecodesExactlyWellFormed : decBits 5 [true, true, true, true, true, false] = some (List.replicate 5 true) := by
  decide
theorem witness_UnstuffedInputIsUnchanged : 1 ≤ 5 ∧ ∀ l ∈ onesRuns [true, true, true, true, false], l < 5 := by decide
theorem witness_EncodeRunEndsAsCapacityAllows :
    memoryWf readyEncode.mem = true ∧ busy readyEncode = false ∧ ParamsOk .enc readyEncode ∧ WindowsOk readyEncode ∧
      (encBits 5 (seqBits readyEncode.mem 0x1000 8)).length ≤ 8 * readyEncode.outCap.toNat ∧
      8 * ({ readyEncode with outCap := 1 } : State).outCap.toNat <
        (encBits 5 (seqBits readyEncode.mem 0x1000 8)).length :=
  ⟨by decide, by decide, readyEncode_params, readyEncode_windows, by decide, by decide⟩
theorem witness_EncodeRunWritesStuffedSequence :
    memoryWf readyEncode.mem = true ∧ busy readyEncode = false ∧ ParamsOk .enc readyEncode ∧ WindowsOk readyEncode ∧
      (encBits readyEncode.k.toNat (seqBits readyEncode.mem readyEncode.inAddr readyEncode.inLen.toNat)).length ≤
        8 * readyEncode.outCap.toNat :=
  ⟨by decide, by decide, readyEncode_params, readyEncode_windows, by decide⟩
/-- The three outcomes: D2's input is well formed, D4's and D10a's operands give the other two. -/
theorem witness_DecodeRunEndsAsInputAndCapacityAllow :
    memoryWf readyDecode.mem = true ∧ busy readyDecode = false ∧ ParamsOk .dec readyDecode ∧ WindowsOk readyDecode ∧
      dataBits 5 (seqBits readyDecode.mem 0x1000 9) ≤ 8 * readyDecode.outCap.toNat ∧
      wellFormedStuffed 5 (seqBits readyDecode.mem 0x1000 9) = true ∧
      wellFormedStuffed 5 (seqBits [(0x1000, 0xF8)] 0x1000 5) = false ∧
      8 * ({ readyDecode with outCap := 0 } : State).outCap.toNat < dataBits 5 (seqBits readyDecode.mem 0x1000 9) :=
  ⟨by decide, by decide, readyDecode_params, readyDecode_windows, by decide, by decide, by decide, by decide⟩
theorem witness_DecodeRunWritesOriginalSequence :
    memoryWf readyDecode.mem = true ∧ busy readyDecode = false ∧ ParamsOk .dec readyDecode ∧ WindowsOk readyDecode ∧
      decBits readyDecode.k.toNat (seqBits readyDecode.mem readyDecode.inAddr readyDecode.inLen.toNat) =
        some [false, false, true, true, true, true, true, false] ∧
      [false, false, true, true, true, true, true, false].length ≤ 8 * readyDecode.outCap.toNat :=
  ⟨by decide, by decide, readyDecode_params, readyDecode_windows, by decide, by decide⟩

/-- The first three bits of E3's input, whose ENCODE takes four engine steps. -/
def readyShort : State := { readyEncode with inLen := 3 }

/-- `readyShort` after its start. -/
def startedShort : State := setResult statusRunning 0 (setEngine (latched .enc readyShort) readyShort)

theorem readyShort_params : ParamsOk .enc readyShort := paramOk_iff.1 (by decide)

theorem readyShort_windows : WindowsOk readyShort :=
  ⟨windowsOverlap_eq_false_iff.1 (by decide), windowOrdinary_iff.1 (by decide), windowOrdinary_iff.1 (by decide)⟩

theorem readyShort_start : exec (.encode 0) readyShort = .next startedShort :=
  (unlessBusy_of_idle (by decide)).trans (start_of_ok readyShort_params readyShort_windows)

/-- `readyShort` when its ENCODE has ended, set up by the host for the DECODE. -/
def decodeShort : State :=
  { engineRun (readyShort.inLen.toNat + 1) startedShort with
    inAddr := readyShort.outAddr
    inLen := (engineRun (readyShort.inLen.toNat + 1) startedShort).outLen
    outAddr := 0x3000
    outCap := 1 }

theorem witness_EncodeThenDecodeRestoresInput :
    memoryWf readyShort.mem = true ∧ busy readyShort = false ∧ ParamsOk .enc readyShort ∧ WindowsOk readyShort ∧
      (encBits readyShort.k.toNat (seqBits readyShort.mem readyShort.inAddr readyShort.inLen.toNat)).length ≤
        8 * readyShort.outCap.toNat ∧
      exec (.encode 0) readyShort = .next startedShort ∧ WindowsOk decodeShort ∧
      readyShort.inLen.toNat ≤ 8 * (1 : Word).toNat :=
  ⟨by decide, by decide, readyShort_params, readyShort_windows, by decide, readyShort_start,
    ⟨windowsOverlap_eq_false_iff.1 (by decide), windowOrdinary_iff.1 (by decide), windowOrdinary_iff.1 (by decide)⟩,
    by decide⟩
theorem witness_AmpleCapacityNeverExceeded :
    memoryWf readyEncode.mem = true ∧ busy readyEncode = false ∧ WindowsOk readyEncode ∧ ParamsOk .enc readyEncode ∧
      (readyEncode.inLen.toNat + readyEncode.inLen.toNat / readyEncode.k.toNat + 7) / 8 ≤ readyEncode.outCap.toNat ∧
      ParamsOk .dec readyEncode ∧ (readyEncode.inLen.toNat + 7) / 8 ≤ readyEncode.outCap.toNat :=
  ⟨by decide, by decide, readyEncode_windows, readyEncode_params, by decide, readyEncode_params_dec, by decide⟩

/-- `readyEncode` after another history: other memory outside its input bits, a stale result, another host. -/
def readyElsewhere : State :=
  { readyEncode with status := 0x6, mem := [(0x1000, 0x3E), (0x2000, 0xFF)], draws := 7, agenda := [.engine] }

theorem readyElsewhere_windows : WindowsOk readyElsewhere := readyEncode_windows
theorem readyElsewhere_params : ParamsOk .enc readyElsewhere := readyEncode_params

theorem witness_OutcomeDependsOnOperandsAndInput :
    memoryWf readyEncode.mem = true ∧ memoryWf readyElsewhere.mem = true ∧ busy readyEncode = false ∧
      busy readyElsewhere = false ∧
      (readyEncode.k = readyElsewhere.k ∧ readyEncode.inAddr = readyElsewhere.inAddr ∧
        readyEncode.inLen = readyElsewhere.inLen ∧ readyEncode.outAddr = readyElsewhere.outAddr ∧
        readyEncode.outCap = readyElsewhere.outCap) ∧
      seqBits readyEncode.mem readyEncode.inAddr readyEncode.inLen.toNat =
        seqBits readyElsewhere.mem readyEncode.inAddr readyEncode.inLen.toNat ∧
      exec (.encode 0) readyEncode =
        .next (setResult statusRunning 0 (setEngine (latched .enc readyEncode) readyEncode)) ∧
      exec (.encode 0) readyElsewhere =
        .next (setResult statusRunning 0 (setEngine (latched .enc readyElsewhere) readyElsewhere)) ∧
      busy (setResult statusRunning 0 (setEngine (latched .enc readyEncode) readyEncode)) = true :=
  ⟨by decide, by decide, by decide, by decide, by decide, by decide, witness_CommandFrame,
    (unlessBusy_of_idle (by decide)).trans (start_of_ok readyElsewhere_params readyElsewhere_windows), by decide⟩

end Sys2Proof.Tests
end

namespace Sys2Proof.Machine

/-! # Proofs of the family 10_state.md -/

/-! ## The register map (30_encoding.md R70, R71) -/

/-- The register map and the table of offsets are inverse to each other. -/
theorem regAtOffset_eq_some_iff {off : Nat} {r : Reg} : regAtOffset off = some r ↔ off = regOffset r := by
  constructor
  · intro h
    unfold regAtOffset at h
    split at h <;> cases h <;> rfl
  · rintro rfl
    cases r <;> rfl

/-- Settles O4: an access of the right shape is looked up by its offset, and the lookup inverts `regOffset`. -/
theorem busReachesExactlyEightRegisters : Obligations.BusReachesExactlyEightRegisters := by
  intro base width addr r
  unfold busRegister
  split
  · next hshape =>
    rw [regAtOffset_eq_some_iff]
    omega
  · next hshape =>
    simp only [reduceCtorEq, false_iff]
    omega

/-! ## Commands and the frame of an engine step -/

/-- Settles O13, over the three things a command can do. -/
theorem commandFrame : Obligations.CommandFrame := by
  intro i s t h
  rcases exec_next_cases h with rfl | ⟨-, rfl⟩ | ⟨op, hidle, -, -, rfl⟩
  · simp
  · simp [completeInvalid, reportError]
  · simp [hidle]

/-- `u` with the operand registers, the host, the platform and the agenda of `s`: everything the engine never writes. -/
def withFrameOf (s u : State) : State :=
  { u with k := s.k, inAddr := s.inAddr, inLen := s.inLen, outAddr := s.outAddr, outCap := s.outCap, host := s.host,
           platform := s.platform, agenda := s.agenda }

/-- Putting the frame of a fixed state in place is a bystander of the engine. -/
theorem bystander_withFrameOf (s : State) : Bystander (withFrameOf s) where
  eng _ := rfl
  mem _ := rfl
  setEngine _ _ := rfl
  storeByte _ _ _ := rfl
  forgetWindow _ _ := rfl
  setResult _ _ _ := rfl

/-- An engine step leaves the frame as it is: putting it back afterwards changes nothing. -/
theorem withFrameOf_engineStep (s : State) : withFrameOf s (engineStep s) = engineStep s :=
  (bystander_engineStep (bystander_withFrameOf s) s).symm

theorem engineTurn_of_busy {s : State} (h : busy s = true) : engineTurn s = engineStep s := if_pos h

theorem engineTurn_of_idle {s : State} (h : busy s = false) : engineTurn s = s := if_neg (by simp [h])

theorem withFrameOf_engineTurn (s : State) : withFrameOf s (engineTurn s) = engineTurn s := by
  rcases hb : busy s
  · rw [engineTurn_of_idle hb]
    rfl
  · rw [engineTurn_of_busy hb, withFrameOf_engineStep]

/-- Settles O27: each field is read off `withFrameOf_engineTurn`. -/
theorem engineKeepsOperandRegisters : Obligations.EngineKeepsOperandRegisters := by
  intro s
  rw [← withFrameOf_engineTurn s]
  exact ⟨rfl, rfl, rfl, rfl, rfl, rfl, rfl, rfl⟩

/-! ## STATUS and OUT_LEN in an engine step (10_state.md R33) -/

/-- What an engine step does to the result registers: it leaves them alone, or ends the operation with one of the three
words an engine can report. -/
def ResultKeptOrEnded (s t : State) : Prop :=
  (t.status = s.status ∧ t.outLen = s.outLen) ∨ t.status = statusSuccess ∨
    t.status = statusFailed .capacityExceeded ∨ t.status = statusFailed .malformedStuffedInput

theorem resultKeptOrEnded_complete (s : State) : ResultKeptOrEnded s (complete s) := .inr (.inl rfl)

theorem resultKeptOrEnded_capacityExceeded (s u : State) : ResultKeptOrEnded s (raiseError .capacityExceeded u) :=
  .inr (.inr (.inl rfl))

theorem resultKeptOrEnded_malformed (s u : State) : ResultKeptOrEnded s (raiseError .malformedStuffedInput u) :=
  .inr (.inr (.inr rfl))

theorem putBit_result {b : Bool} {s t : State} (h : putBit b s = some t) : t.status = s.status ∧ t.outLen = s.outLen := by
  obtain ⟨-, rfl⟩ := putBit_eq_some h
  exact ⟨rfl, rfl⟩

theorem resultKeptOrEnded_nextInputBit_setRun {s c : State} {w : Word}
    (h : c.status = s.status ∧ c.outLen = s.outLen) : ResultKeptOrEnded s (nextInputBit (setRun w c)) := .inl h

theorem resultKeptOrEnded_encStep (s : State) : ResultKeptOrEnded s (encStep s) := by
  rcases encStep_cases s with ⟨-, h⟩ | ⟨-, -, h⟩ |
      ⟨c, -, hc, ⟨-, h⟩ | ⟨-, -, h⟩ | ⟨-, -, -, h⟩ | ⟨-, -, d, hd, h⟩⟩ <;> rw [h]
  case inl => exact resultKeptOrEnded_complete s
  case inr.inl => exact resultKeptOrEnded_capacityExceeded s s
  case inr.inr.inl => exact resultKeptOrEnded_nextInputBit_setRun (putBit_result hc)
  case inr.inr.inr.inl => exact resultKeptOrEnded_nextInputBit_setRun (putBit_result hc)
  case inr.inr.inr.inr.inl => exact resultKeptOrEnded_capacityExceeded s _
  case inr.inr.inr.inr.inr =>
    obtain ⟨hcs, hcl⟩ := putBit_result hc
    obtain ⟨hds, hdl⟩ := putBit_result hd
    exact resultKeptOrEnded_nextInputBit_setRun ⟨hds.trans hcs, hdl.trans hcl⟩

theorem resultKeptOrEnded_decStep (s : State) : ResultKeptOrEnded s (decStep s) := by
  rcases decStep_cases s with ⟨-, -, h⟩ | ⟨-, -, h⟩ | ⟨-, -, -, h⟩ | ⟨-, -, -, h⟩ | ⟨-, -, -, h⟩ |
      ⟨c, -, -, hc, h⟩ <;> rw [h]
  · exact resultKeptOrEnded_malformed s s
  · exact resultKeptOrEnded_complete s
  · exact resultKeptOrEnded_malformed s s
  · exact resultKeptOrEnded_nextInputBit_setRun ⟨rfl, rfl⟩
  · exact resultKeptOrEnded_capacityExceeded s s
  · exact resultKeptOrEnded_nextInputBit_setRun (putBit_result hc)

theorem resultKeptOrEnded_engineStep (s : State) : ResultKeptOrEnded s (engineStep s) := by
  unfold engineStep
  split
  · exact resultKeptOrEnded_encStep s
  · exact resultKeptOrEnded_decStep s

/-- Settles O28: an idle turn changes nothing, and a step keeps the result or ends the operation. -/
theorem engineWritesStatusOnlyAtCompletion : Obligations.EngineWritesStatusOnlyAtCompletion := by
  intro s
  rcases hb : busy s
  · rw [engineTurn_of_idle hb]
    exact .inl ⟨rfl, rfl⟩
  · rw [engineTurn_of_busy hb]
    exact (resultKeptOrEnded_engineStep s).imp_right fun hended => ⟨rfl, hended⟩

/-! ## The invariant where no operation runs -/

/-- In an idle state the invariant asks nothing of the engine. -/
theorem machineInv_of_idle {s : State} (hidle : busy s = false) (hmem : memoryWf s.mem = true)
    (htemps : cellsWf 0 s.host.temps = true) (hstatus : StatusLegal s.status) (hlen : OutLenLegal s) : MachineInv s :=
  ⟨hmem, htemps, hstatus, hlen, fun hb => absurd hb (by simp [hidle])⟩

theorem statusLegal_zero : StatusLegal 0 := by decide

theorem statusLegal_running : StatusLegal statusRunning := by decide

theorem statusLegal_success : StatusLegal statusSuccess := by decide

theorem statusLegal_failed (e : ErrorKind) : StatusLegal (statusFailed e) := by cases e <;> decide

/-- Settles O40: the eight registers of the reset state. -/
theorem registersAfterReset : Obligations.RegistersAfterReset := by
  unfold Obligations.RegistersAfterReset
  decide

/-- Settles O43: the reset state is idle, so the invariant asks nothing of its engine. -/
theorem resetMeetsInvariant : Obligations.ResetMeetsInvariant :=
  machineInv_of_idle rfl memoryWf_reset rfl statusLegal_zero fun _ => rfl

theorem machineInv_complete {s : State} (hmem : memoryWf s.mem = true) (htemps : cellsWf 0 s.host.temps = true) :
    MachineInv (complete s) :=
  machineInv_of_idle (busy_complete s) hmem htemps statusLegal_success fun h => absurd rfl h

theorem machineInv_reportError {s : State} (e : ErrorKind) (hmem : memoryWf s.mem = true)
    (htemps : cellsWf 0 s.host.temps = true) : MachineInv (reportError e s) :=
  machineInv_of_idle (busy_reportError s e) hmem htemps (statusLegal_failed e) fun _ => rfl

theorem machineInv_raiseError {s : State} (e : ErrorKind) (hmem : memoryWf s.mem = true)
    (htemps : cellsWf 0 s.host.temps = true) : MachineInv (raiseError e s) :=
  machineInv_reportError e (memoryWf_forgetWindow hmem) htemps

/-- A reset step keeps the invariant, whether or not it abandons an operation. -/
theorem machineInv_resetStep {s : State} (hmem : memoryWf s.mem = true) (htemps : cellsWf 0 s.host.temps = true) :
    MachineInv (resetStep s) := by
  have hkeeps : memoryWf (resetStep s).mem = true ∧ (resetStep s).host = s.host := by
    unfold resetStep
    split
    · exact ⟨memoryWf_forgetWindow hmem, rfl⟩
    · exact ⟨hmem, rfl⟩
  obtain ⟨hmem', hhost⟩ := hkeeps
  exact machineInv_of_idle (busy_resetStep s) hmem' (hhost ▸ htemps) statusLegal_zero fun _ => rfl

/-! ## The host keeps the invariant -/

/-- A start that passes its tests meets the invariant: its cursors are all 0 (R105). -/
theorem engineLegal_latched {op : Op} {s : State} (hp : ParamsOk op s) (hw : WindowsOk s) :
    EngineLegal (setResult statusRunning 0 (setEngine (latched op s) s)) := by
  obtain ⟨hdisjoint, hin, hout⟩ := hw
  have hk : s.k ≠ 0 := by
    cases op
    · exact hp.1
    · exact hp
  have hkpos : 0 < s.k.toNat := Nat.pos_of_ne_zero fun h => hk (BitVec.eq_of_toNat_eq h)
  rw [← outWindow_latched op] at hdisjoint hout
  refine ⟨hk, Nat.zero_le _, ?_, Nat.zero_le _, ?_, fun _ => ⟨Nat.zero_le _, Nat.le_refl _⟩,
    windowsOverlap_eq_false_iff.2 hdisjoint, windowOrdinary_iff.2 hin, windowOrdinary_iff.2 hout,
    fun h => absurd rfl h⟩
  · simp [latched, capacityBits_toNat]
  · rintro rfl
    exact ⟨hkpos, Nat.le_refl _, Nat.zero_le _, hp.2⟩

theorem machineInv_exec {i : Instr} {s t : State} (hinv : MachineInv s) (h : exec i s = .next t) : MachineInv t := by
  have ⟨hmem, htemps, _⟩ := hinv
  rcases exec_next_cases h with rfl | ⟨-, rfl⟩ | ⟨op, -, hp, hw, rfl⟩
  · exact hinv
  · exact machineInv_reportError _ hmem htemps
  · exact ⟨hmem, htemps, statusLegal_running, fun _ => rfl, fun _ => engineLegal_latched hp hw⟩

/-- While it is incomplete, the current output byte lies in the output window (R56). -/
theorem windowHas_outByteAddress {e : Engine} (hbytes : e.capBits.toNat % 8 = 0) (hroom : e.o.toNat ≤ e.capBits.toNat)
    (hpart : e.o.toNat % 8 ≠ 0) : windowHas (outWindow e) (outByteAddress e) = true :=
  windowHas_iff.2 ⟨e.o.toNat / 8, by simp only [outWindow]; omega, rfl⟩

/-- A store that misses the windows of a running operation keeps the invariant. -/
theorem machineInv_storeByte {s : State} {a : Word} {v : Byte} (hinv : MachineInv s)
    (hmiss : busy s = true → windowHas (outWindow s.eng) a ≠ true) : MachineInv (storeByte a v s) := by
  obtain ⟨hmem, htemps, hstatus, hlen, heng⟩ := hinv
  refine ⟨memoryWf_storeByte hmem, htemps, hstatus, hlen, fun hb => ?_⟩
  obtain ⟨hk, hi, hbytes, hroom, henc, hdec, hover, hin, hout, hcur⟩ := heng hb
  refine ⟨hk, hi, hbytes, hroom, henc, hdec, hover, hin, hout, fun hpart => ?_⟩
  have hother : outByteAddress s.eng ≠ a := by
    rintro rfl
    exact hmiss hb (windowHas_outByteAddress hbytes hroom hpart)
  obtain ⟨hread, hlow⟩ := hcur hpart
  exact ⟨(memRead_memWrite_other hother).trans hread, hlow⟩

theorem machineInv_tempWrite {s : State} {x : Nat} {v : Word} (hinv : MachineInv s) : MachineInv (tempWrite x v s) := by
  obtain ⟨hmem, htemps, hrest⟩ := hinv
  exact ⟨hmem, cellsWf_cellsWrite htemps, hrest⟩

/-- The operand registers, the host's program counter and the count of free bytes are no part of the invariant: a line that
changes only those keeps it as it stands. -/
theorem machineInv_hostOp {op : HostOp} {s t : State} (hinv : MachineInv s) (h : hostOp op s = .next t) :
    MachineInv t := by
  rcases hostOp_next_cases h with ⟨i, h⟩ | rfl | ⟨_, _, _, _, _, rfl⟩ | ⟨a, v, -, hmiss, rfl⟩ | ⟨x, v, rfl | rfl⟩ |
      ⟨label, rfl⟩
  · exact machineInv_exec hinv h
  · exact hinv
  · exact hinv
  · exact machineInv_storeByte hinv fun hb hw => hmiss ⟨hb, .inr hw⟩
  · exact machineInv_tempWrite hinv
  · exact machineInv_tempWrite (s := countDraws 1 s) hinv
  · exact hinv

theorem machineInv_hostTurn {s t : State} (hinv : MachineInv s) (h : hostTurn s = .next t) : MachineInv t := by
  rcases hostTurn_next_cases h with rfl | ⟨op, -, h⟩
  · exact hinv
  · exact machineInv_hostOp (s := hostAdvance s) hinv h

/-! ## The states inside an engine step -/

/-- `c` is reached inside an engine step from `s` before its input cursor moves: only memory, the output cursor, the run
counter and the current byte differ, memory is canonical, and the current output byte is written through. -/
structure MidStep (s c : State) : Prop where
  frame : ∃ m o r a, c = { s with mem := m, eng := { s.eng with o := o, run := r, acc := a } }
  memWf : memoryWf c.mem = true
  current : OutputByteCurrent c
  room : c.eng.o.toNat ≤ c.eng.capBits.toNat

theorem midStep_refl {s : State} (hinv : MachineInv s) (hb : busy s = true) : MidStep s s := by
  obtain ⟨hmem, -, -, -, heng⟩ := hinv
  obtain ⟨-, -, -, hroom, -, -, -, -, -, hcur⟩ := heng hb
  exact ⟨⟨_, _, _, _, rfl⟩, hmem, hcur, hroom⟩

theorem midStep_setRun {s c : State} {r : Word} (h : MidStep s c) : MidStep s (setRun r c) := by
  obtain ⟨⟨_, _, _, _, rfl⟩, hmem, hcur, hroom⟩ := h
  exact ⟨⟨_, _, _, _, rfl⟩, hmem, hcur, hroom⟩

theorem midStep_putBit {s c d : State} {b : Bool} (h : MidStep s c) (ho : c.eng.o.toNat + 1 < 2 ^ 32)
    (hput : putBit b c = some d) : MidStep s d := by
  obtain ⟨⟨_, _, _, _, rfl⟩, hmem, hcur, -⟩ := h
  obtain ⟨hcap, hd⟩ := putBit_eq_some hput
  obtain ⟨d', hput', -, hod, hmemd, hcurd, -⟩ := putBit_spec (b := b) hmem hcur hcap ho
  obtain rfl : d = d' := Option.some.inj (hput.symm.trans hput')
  refine ⟨⟨_, _, _, _, hd⟩, hmemd, hcurd, ?_⟩
  rw [hod, hd]
  exact hcap

/-- An error raised inside an engine step leaves the invariant in place. -/
theorem machineInv_raiseError_of_midStep {s c : State} (e : ErrorKind) (hinv : MachineInv s) (h : MidStep s c) :
    MachineInv (raiseError e c) := by
  obtain ⟨-, htemps, -, -, -⟩ := hinv
  obtain ⟨⟨_, _, _, _, rfl⟩, hmem, -, -⟩ := h
  exact machineInv_raiseError e hmem htemps

/-- A counter below another one counts exactly. -/
theorem increment_toNat_of_lt {v w : Word} (h : v.toNat < w.toNat) : (increment v).toNat = v.toNat + 1 :=
  increment_toNat (by have := w.isLt; omega)

theorem toNat_lt_of_le_of_ne {v w : Word} (hle : v.toNat ≤ w.toNat) (hne : v ≠ w) : v.toNat < w.toNat :=
  Nat.lt_of_le_of_ne hle fun h => hne (BitVec.eq_of_toNat_eq h)

/-- The cursors after PutBit: one more output bit, the run counter as it was. -/
theorem putBit_cursors {b : Bool} {c d : State} (hput : putBit b c = some d) (ho : c.eng.o.toNat + 1 < 2 ^ 32) :
    d.eng.o.toNat = c.eng.o.toNat + 1 ∧ d.eng.run = c.eng.run ∧ d.eng.k = c.eng.k := by
  obtain ⟨-, rfl⟩ := putBit_eq_some hput
  exact ⟨increment_toNat ho, rfl, rfl⟩

/-- The engine when a step goes on from `c`, the run counter set to `r`. -/
def movedOn (e : Engine) (c : State) (r : Word) : Engine :=
  { e with i := increment e.i, o := c.eng.o, run := r, acc := c.eng.acc }

/-- A step that goes on keeps the invariant where it keeps the bounds of its operation's cursors. -/
theorem machineInv_nextInputBit_setRun {s c : State} {r : Word} (hinv : MachineInv s) (hb : busy s = true)
    (hmore : s.eng.i ≠ s.eng.n) (h : MidStep s c)
    (henc : s.eng.op = .enc → EncodeCursors (movedOn s.eng c r))
    (hdec : s.eng.op = .dec → DecodeCursors (movedOn s.eng c r)) :
    MachineInv (nextInputBit (setRun r c)) := by
  obtain ⟨-, htemps, hstatus, hlen, heng⟩ := hinv
  obtain ⟨hk, hi, hbytes, -, -, -, hover, hin, hout, -⟩ := heng hb
  obtain ⟨⟨_, _, _, _, rfl⟩, hmem, hcur, hroom⟩ := h
  have hlt := toNat_lt_of_le_of_ne hi hmore
  have hnext : (increment s.eng.i).toNat ≤ s.eng.n.toNat := (increment_toNat_of_lt hlt).trans_le hlt
  exact ⟨hmem, htemps, hstatus, hlen,
    fun _ => ⟨hk, hnext, hbytes, hroom, henc, hdec, hover, hin, hout, hcur⟩⟩

/-! ## The cursors of ENCODE (41_encode.md R121, R124) -/

/-- The length check leaves room in the output cursor for the data bit and the stuff bit of every step (R121). -/
theorem encodeCursors_room {e : Engine} (h : EncodeCursors e) (hin : e.i.toNat < e.n.toNat) :
    e.o.toNat + 2 < 2 ^ 32 := by
  obtain ⟨hrun, hio, hstuffed, hcheck⟩ := h
  have hbits : e.o.toNat - e.i.toNat ≤ ceilDiv e.n.toNat e.k.toNat := by
    rw [ceilDiv, Nat.le_div_iff_mul_le (by omega), Nat.mul_comm]
    omega
  simp only [Config.lenMax] at hcheck
  omega

/-- A data bit without a stuff bit: both cursors move by one, and the run counter grows by at most one. -/
theorem encodeCursors_copy {e : Engine} {c : State} {r : Word} (h : EncodeCursors e) (hin : e.i.toNat < e.n.toNat)
    (ho : c.eng.o.toNat = e.o.toNat + 1) (hr : r.toNat ≤ e.run.toNat + 1) (hrk : r.toNat < e.k.toNat) :
    EncodeCursors (movedOn e c r) := by
  obtain ⟨hrun, hio, hstuffed, hcheck⟩ := h
  simp only [EncodeCursors, movedOn, increment_toNat_of_lt hin, ho, Nat.add_sub_add_right]
  exact ⟨hrk, by omega, by omega, hcheck⟩

/-- A data bit with its stuff bit: the K ones it closes pay for the extra output bit. -/
theorem encodeCursors_stuff {e : Engine} {c : State} (h : EncodeCursors e) (hin : e.i.toNat < e.n.toNat)
    (ho : c.eng.o.toNat = e.o.toNat + 2) (hfull : e.run.toNat + 1 = e.k.toNat) : EncodeCursors (movedOn e c 0) := by
  obtain ⟨hrun, hio, hstuffed, hcheck⟩ := h
  have hextra : e.k.toNat * (e.o.toNat + 2 - (e.i.toNat + 1)) =
      e.k.toNat * (e.o.toNat - e.i.toNat) + e.k.toNat := by
    rw [← Nat.mul_succ]
    congr 1
    omega
  have hzero : (0 : Word).toNat = 0 := rfl
  simp only [EncodeCursors, movedOn, increment_toNat_of_lt hin, ho, hextra, hzero]
  exact ⟨by omega, by omega, by omega, hcheck⟩

/-! ## The engine keeps the invariant -/

theorem machineInv_encStep {s : State} (hinv : MachineInv s) (hb : busy s = true) (hop : s.eng.op = .enc) :
    MachineInv (encStep s) := by
  have hmid := midStep_refl hinv hb
  have ⟨hmem, htemps, _, _, heng⟩ := hinv
  obtain ⟨-, hi, -, -, henc, -⟩ := heng hb
  have hcursors := henc hop
  have ⟨hrun, _⟩ := hcursors
  have hnotDec : s.eng.op = .dec → ∀ e, DecodeCursors e := by simp [hop]
  rcases encStep_cases s with ⟨-, h⟩ | ⟨-, -, h⟩ | ⟨c, hmore, hput, hcases⟩
  case inl => exact h ▸ machineInv_complete hmem htemps
  case inr.inl => exact h ▸ machineInv_raiseError_of_midStep _ hinv hmid
  case inr.inr =>
    have hin := toNat_lt_of_le_of_ne hi hmore
    have hroom := encodeCursors_room hcursors hin
    have hmidc : MidStep s c := midStep_putBit hmid (by omega) hput
    obtain ⟨hoc, hrunc, hkc⟩ := putBit_cursors hput (by omega)
    rw [hrunc, hkc] at hcases
    have hcount : (increment s.eng.run).toNat = s.eng.run.toNat + 1 := increment_toNat_of_lt hrun
    rcases hcases with ⟨-, h⟩ | ⟨-, hbelow, h⟩ | ⟨-, -, -, h⟩ | ⟨-, hfull, d, hstuff, h⟩ <;> rw [h]
    case inl =>
      exact machineInv_nextInputBit_setRun hinv hb hmore hmidc
        (fun _ => encodeCursors_copy hcursors hin hoc (Nat.zero_le _) (Nat.zero_lt_of_lt hrun)) (hnotDec · _)
    case inr.inl =>
      have hlt : (increment s.eng.run).toNat < s.eng.k.toNat := toNat_lt_of_le_of_ne (by omega) hbelow
      exact machineInv_nextInputBit_setRun hinv hb hmore hmidc
        (fun _ => encodeCursors_copy hcursors hin hoc hcount.le hlt) (hnotDec · _)
    case inr.inr.inl => exact machineInv_raiseError_of_midStep _ hinv (midStep_setRun hmidc)
    case inr.inr.inr =>
      have hnext : c.eng.o.toNat + 1 < 2 ^ 32 := by omega
      have hcounted : MidStep s (setRun (increment s.eng.run) c) := midStep_setRun hmidc
      have hmidd : MidStep s d := midStep_putBit hcounted hnext hstuff
      have hod : d.eng.o.toNat = c.eng.o.toNat + 1 := (putBit_cursors hstuff hnext).1
      have hfull : s.eng.run.toNat + 1 = s.eng.k.toNat := hcount.symm.trans (congrArg BitVec.toNat hfull)
      exact machineInv_nextInputBit_setRun hinv hb hmore hmidd
        (fun _ => encodeCursors_stuff hcursors hin (by omega) hfull) (hnotDec · _)

theorem machineInv_decStep {s : State} (hinv : MachineInv s) (hb : busy s = true) (hop : s.eng.op = .dec) :
    MachineInv (decStep s) := by
  have hmid := midStep_refl hinv hb
  have ⟨hmem, htemps, _, _, heng⟩ := hinv
  obtain ⟨-, hi, -, -, -, hdec, -⟩ := heng hb
  obtain ⟨hrun, hoi⟩ := hdec hop
  have hnotEnc : s.eng.op = .enc → ∀ e, EncodeCursors e := by simp [hop]
  rcases decStep_cases s with ⟨-, -, h⟩ | ⟨-, -, h⟩ | ⟨-, -, -, h⟩ | ⟨hmore, -, -, h⟩ | ⟨-, -, -, h⟩ |
      ⟨c, hmore, hbelow, hput, h⟩ <;> rw [h]
  · exact machineInv_raiseError_of_midStep _ hinv hmid
  · exact machineInv_complete hmem htemps
  · exact machineInv_raiseError_of_midStep _ hinv hmid
  · have hin := toNat_lt_of_le_of_ne hi hmore
    exact machineInv_nextInputBit_setRun hinv hb hmore hmid (hnotEnc · _)
      fun _ => ⟨Nat.zero_le _, hoi.trans ((increment_toNat_of_lt hin).ge.trans' (Nat.le_succ _))⟩
  · exact machineInv_raiseError_of_midStep _ hinv hmid
  · have hin := toNat_lt_of_le_of_ne hi hmore
    have hn := s.eng.n.isLt
    have hmidc : MidStep s c := midStep_putBit hmid (by omega) hput
    obtain ⟨hoc, hrunc, -⟩ := putBit_cursors hput (by omega)
    have hlt := toNat_lt_of_le_of_ne hrun hbelow
    refine machineInv_nextInputBit_setRun hinv hb hmore hmidc (hnotEnc · _) fun _ => ?_
    simp only [DecodeCursors, movedOn, increment_toNat_of_lt hin, hoc, hrunc]
    refine ⟨?_, by omega⟩
    split
    · exact (increment_toNat_of_lt hlt).trans_le hlt
    · exact Nat.zero_le _

theorem machineInv_engineTurn {s : State} (hinv : MachineInv s) : MachineInv (engineTurn s) := by
  rcases hb : busy s
  · rwa [engineTurn_of_idle hb]
  · rw [engineTurn_of_busy hb, engineStep]
    split
    · next hop => exact machineInv_encStep hinv hb hop
    · next hop => exact machineInv_decStep hinv hb hop

/-! ## Every step -/

/-- Settles O44, agent by agent; moving the agenda on is no part of the invariant. -/
theorem stepKeepsInvariant : Obligations.StepKeepsInvariant := by
  intro s t hinv h
  obtain ⟨rest, hhost | rfl | rfl⟩ := step_next_cases h
  · exact machineInv_hostTurn (s := setAgenda rest s) hinv hhost
  · exact machineInv_engineTurn (s := setAgenda rest s) hinv
  · obtain ⟨hmem, htemps, -⟩ := hinv
    exact machineInv_resetStep (s := setAgenda rest s) hmem htemps

end Sys2Proof.Machine

namespace Sys2Proof.Machine

/-! # Proofs of the family 20_memory.md -/

/-! ## Starts that are refused (20_memory.md R57, R58; 40_command.md R102) -/

/-- While idle, ENCODE is a start and so is DECODE (R120, R140). -/
theorem exec_start_of_idle {a : BitVec 30} {s : State} (hidle : busy s = false) :
    exec (.encode a) s = start .enc s ∧ exec (.decode a) s = start .dec s :=
  ⟨unlessBusy_of_idle hidle, unlessBusy_of_idle hidle⟩

/-- Settles O11: the shared byte is a counterexample to the windows being disjoint. -/
theorem overlappingStartIsRefused : Obligations.OverlappingStartIsRefused := by
  intro a s x hidle hin hout
  obtain ⟨henc, hdec⟩ := exec_start_of_idle (a := a) hidle
  have hshared : ¬ WindowsDisjoint (operandInWindow s) (operandOutWindow s) := fun hd => hd x ⟨hin, hout⟩
  exact ⟨fun hp => henc.trans (start_of_overlap hp hshared), fun hp => hdec.trans (start_of_overlap hp hshared)⟩

/-- A window with a byte that is not ordinary memory is not all ordinary memory. -/
theorem not_allOrdinary_of_windowHas {p : Platform} {w : Window} {x : Word} (hx : memOrdinary p x = false)
    (hw : windowHas w x = true) : ¬ AllOrdinary p w := fun h => Bool.eq_false_iff.1 hx (h x hw)

/-- Settles O12: the byte that is not ordinary memory lies in one of the two windows. -/
theorem nonOrdinaryStartIsRefused : Obligations.NonOrdinaryStartIsRefused := by
  intro a s x hidle hdisjoint hx hdevice
  obtain ⟨henc, hdec⟩ := exec_start_of_idle (a := a) hidle
  have hnot : ¬ (AllOrdinary s.platform (operandInWindow s) ∧ AllOrdinary s.platform (operandOutWindow s)) := by
    rintro ⟨hin, hout⟩
    rcases hx with hx | hx
    · exact not_allOrdinary_of_windowHas hdevice hx hin
    · exact not_allOrdinary_of_windowHas hdevice hx hout
  exact ⟨fun hp => henc.trans (start_of_not_ordinary hp hdisjoint hnot),
    fun hp => hdec.trans (start_of_not_ordinary hp hdisjoint hnot)⟩

/-! ## Steps of the host (20_memory.md R59, R63; 30_encoding.md R79, R80) -/

theorem step_of_hostNext {s : State} {rest : List Agent} (h : s.agenda = .host :: rest) :
    step s = hostTurn (setAgenda rest s) := by simp only [step, h, agentTurn]

theorem step_of_idle_unnamed {s : State} (h : s.agenda = []) (hidle : busy s = false) : step s = hostTurn s := by
  simp [step, h, defaultAgent, hidle, agentTurn]

theorem hostTurn_of_line {s : State} {op : HostOp} (h : s.host.prog[s.host.pc]? = some op) :
    hostTurn s = hostOp op (hostAdvance s) := by simp only [hostTurn, h]

/-- A 32-bit write at the address of CMD is the command its word decodes to (R79). -/
theorem hostOp_cmdWrite {s : State} {w : Word} :
    hostOp (.busWrite 4 (s.platform.regBase + regOffset .cmd) w) s = exec (decodeCommand w) s := by
  have hcmd : busRegister s.platform.regBase 4 (s.platform.regBase + regOffset .cmd) = some .cmd :=
    (busReachesExactlyEightRegisters ..).2 ⟨rfl, rfl⟩
  simp only [hostOp, hcmd, regWrite]

/-- Every 32-bit word decodes, and to the command the block takes it for (R79). -/
theorem decodeBits_word (w : Word) : decodeBits 32 w.toNat = .ok (decodeCommand w) := by
  simp [decodeBits, w.isLt]

/-- Settles O15: the second half is the first one at a CMD write. -/
theorem stepRunsDecodedCommand : Obligations.StepRunsDecodedCommand := by
  have hline : ∀ (s : State) (rest : List Agent) (op : HostOp), s.host.prog[s.host.pc]? = some op →
      (s.agenda = .host :: rest → step s = hostOp op (hostAdvance (setAgenda rest s))) ∧
      (s.agenda = [] → busy s = false → step s = hostOp op (hostAdvance s)) := fun s rest op hop =>
    ⟨fun h => (step_of_hostNext h).trans (hostTurn_of_line (s := setAgenda rest s) hop),
      fun h hidle => (step_of_idle_unnamed h hidle).trans (hostTurn_of_line hop)⟩
  refine ⟨hline, fun s rest w i hop hi => ?_⟩
  obtain rfl : decodeCommand w = i := Except.ok.inj ((decodeBits_word w).symm.trans hi)
  obtain ⟨hnamed, hunnamed⟩ := hline s rest _ hop
  exact ⟨fun h => (hnamed h).trans (hostOp_cmdWrite (s := hostAdvance (setAgenda rest s))),
    fun h hidle => (hunnamed h hidle).trans (hostOp_cmdWrite (s := hostAdvance s))⟩

/-! ## Host accesses to data memory (20_memory.md R51, 70_reset_and_hazards.md R185, R186) -/

/-- Address `a` is in neither window of a running operation. -/
abbrev OutsideRunningWindows (s : State) (a : Word) : Prop :=
  busy s = true → windowHas (inWindow s.eng) a = false ∧ windowHas (outWindow s.eng) a = false

theorem hostMemWrite_of_outside {s : State} {a : Word} {v : Byte} (h : OutsideRunningWindows s a) :
    hostMemWrite a v s = .next (storeByte a v s) := by
  rcases hb : busy s
  · simp [hostMemWrite, hb]
  · obtain ⟨hin, hout⟩ := h hb
    simp [hostMemWrite, hin, hout]

theorem hostMemRead_of_outside {s : State} {a : Word} {t : Nat} (h : OutsideRunningWindows s a)
    (hord : memOrdinary s.platform a = true) :
    hostMemRead a t s = tempWrite t (BitVec.zeroExtend 32 (memRead s.mem a)) s := by
  have hread : readsFree s a = false := by
    rcases hb : busy s
    · simp [readsFree, hb, hord]
    · simp [readsFree, (h hb).2, hord]
  simp [hostMemRead, hread]

/-- Settles O36: such a write is `storeByte`, such a read is `tempWrite`. -/
theorem hostMemoryAccessOutsideWindows : Obligations.HostMemoryAccessOutsideWindows := by
  rintro s x v t ⟨hmem, htemps, -⟩ hout
  refine ⟨⟨storeByte x v s, hostMemWrite_of_outside hout, rfl, memRead_memWrite_same hmem,
    fun y hy => memRead_memWrite_other hy⟩, fun hord => ?_⟩
  exact ⟨_, congrArg Host.Outcome.next (hostMemRead_of_outside hout hord), rfl,
    fun n hn => tempRead_tempWrite_other hn, tempRead_tempWrite_same htemps⟩

/-! ## What the parts of an engine step keep, the step keeps -/

/-- A predicate that every part of an engine step keeps. -/
structure KeptByEngineParts (P : State → Prop) : Prop where
  putBit {b : Bool} {s t : State} : P s → putBit b s = some t → P t
  setRun {r : Word} {s : State} : P s → P (setRun r s)
  nextInputBit {s : State} : P s → P (nextInputBit s)
  complete {s : State} : P s → P (complete s)
  raiseError {e : ErrorKind} {s : State} : P s → P (raiseError e s)

theorem keptByEngineParts_encStep {P : State → Prop} {s : State} (hP : KeptByEngineParts P) (hs : P s) :
    P (encStep s) := by
  rcases encStep_cases s with ⟨-, h⟩ | ⟨-, -, h⟩ |
      ⟨c, -, hc, ⟨-, h⟩ | ⟨-, -, h⟩ | ⟨-, -, -, h⟩ | ⟨-, -, d, hd, h⟩⟩ <;> rw [h]
  case inl => exact hP.complete hs
  case inr.inl => exact hP.raiseError hs
  case inr.inr.inl => exact hP.nextInputBit (hP.setRun (hP.putBit hs hc))
  case inr.inr.inr.inl => exact hP.nextInputBit (hP.setRun (hP.putBit hs hc))
  case inr.inr.inr.inr.inl => exact hP.raiseError (hP.setRun (hP.putBit hs hc))
  case inr.inr.inr.inr.inr =>
    exact hP.nextInputBit (hP.setRun (hP.putBit (hP.setRun (hP.putBit hs hc)) hd))

theorem keptByEngineParts_decStep {P : State → Prop} {s : State} (hP : KeptByEngineParts P) (hs : P s) :
    P (decStep s) := by
  rcases decStep_cases s with ⟨-, -, h⟩ | ⟨-, -, h⟩ | ⟨-, -, -, h⟩ | ⟨-, -, -, h⟩ | ⟨-, -, -, h⟩ |
      ⟨c, -, -, hc, h⟩ <;> rw [h]
  · exact hP.raiseError hs
  · exact hP.complete hs
  · exact hP.raiseError hs
  · exact hP.nextInputBit (hP.setRun hs)
  · exact hP.raiseError hs
  · exact hP.nextInputBit (hP.setRun (hP.putBit hs hc))

theorem keptByEngineParts_engineStep {P : State → Prop} {s : State} (hP : KeptByEngineParts P) (hs : P s) :
    P (engineStep s) := by
  unfold engineStep
  split
  · exact keptByEngineParts_encStep hP hs
  · exact keptByEngineParts_decStep hP hs

/-! ## The engine writes its output window only (20_memory.md R56) -/

/-- From `s` to `t` memory has changed in the output window of `s` only, and the window is still the same one. -/
structure WroteOutputOnly (s t : State) : Prop where
  outAddr : t.eng.outAddr = s.eng.outAddr
  capBits : t.eng.capBits = s.eng.capBits
  outside {x : Word} : windowHas (outWindow s.eng) x = false → memRead t.mem x = memRead s.mem x

theorem wroteOutputOnly_outWindow {s t : State} (h : WroteOutputOnly s t) : outWindow t.eng = outWindow s.eng := by
  simp only [outWindow, h.outAddr, h.capBits]

/-- The output byte of a PutBit with room lies in the output window, a whole number of bytes. -/
theorem putBit_outside {b : Bool} {s t : State} {x : Word} (hput : putBit b s = some t)
    (hbytes : s.eng.capBits.toNat % 8 = 0) (hx : windowHas (outWindow s.eng) x = false) :
    memRead t.mem x = memRead s.mem x := by
  obtain ⟨hroom, rfl⟩ := putBit_eq_some hput
  refine memRead_memWrite_other ?_
  rintro rfl
  exact Bool.eq_false_iff.1 hx (windowHas_iff.2 ⟨s.eng.o.toNat / 8, by simp only [outWindow]; omega, rfl⟩)

theorem wroteOutputOnly_kept {s : State} (hbytes : s.eng.capBits.toNat % 8 = 0) :
    KeptByEngineParts (WroteOutputOnly s) where
  putBit {b c d} hc hput := by
    have ⟨houtAddr, hcapBits, houtside⟩ := hc
    have hwrite : ∀ {x}, windowHas (outWindow s.eng) x = false → memRead d.mem x = memRead c.mem x := fun hx =>
      putBit_outside hput (hcapBits ▸ hbytes) (wroteOutputOnly_outWindow hc ▸ hx)
    obtain ⟨-, rfl⟩ := putBit_eq_some hput
    exact ⟨houtAddr, hcapBits, fun hx => (hwrite hx).trans (houtside hx)⟩
  setRun hc := ⟨hc.outAddr, hc.capBits, hc.outside⟩
  nextInputBit hc := ⟨hc.outAddr, hc.capBits, hc.outside⟩
  complete hc := ⟨hc.outAddr, hc.capBits, hc.outside⟩
  raiseError hc := ⟨hc.outAddr, hc.capBits, fun hx =>
    (memRead_forgetWindow_outside (wroteOutputOnly_outWindow hc ▸ hx)).trans (hc.outside hx)⟩

/-- Settles O25: every part of the step writes the output window only, and the input window is disjoint from it. -/
theorem engineWritesOnlyOutputWindow : Obligations.EngineWritesOnlyOutputWindow := by
  rintro s x ⟨-, -, -, -, heng⟩ hb
  obtain ⟨-, -, hbytes, -, -, -, hover, -⟩ := heng hb
  have hwrote : WroteOutputOnly s (engineStep s) :=
    keptByEngineParts_engineStep (wroteOutputOnly_kept hbytes) ⟨rfl, rfl, fun _ => rfl⟩
  refine ⟨hwrote.outside, fun hin => hwrote.outside ?_⟩
  exact Bool.eq_false_iff.2 fun hout => windowsOverlap_eq_false_iff.1 hover x ⟨hin, hout⟩

/-! ## The engine sees its input bits only (20_memory.md R54) -/

/-- Two memories reached from `m₀` and `m₁` by the same writes: a byte is the one that was written in both, or each still
holds its own. -/
structure SameWrites (m₀ m₁ m m' : Memory) : Prop where
  wf : memoryWf m = true
  wf' : memoryWf m' = true
  byte (x : Word) : memRead m' x = memRead m x ∨ (memRead m' x = memRead m₁ x ∧ memRead m x = memRead m₀ x)

theorem sameWrites_memWrite {m₀ m₁ m m' : Memory} {a : Word} {v : Byte} (h : SameWrites m₀ m₁ m m') :
    SameWrites m₀ m₁ (memWrite m a v) (memWrite m' a v) where
  wf := memoryWf_memWrite h.wf
  wf' := memoryWf_memWrite h.wf'
  byte x := by
    by_cases hx : x = a
    · subst hx
      exact .inl ((memRead_memWrite_same h.wf').trans (memRead_memWrite_same h.wf).symm)
    · rw [memRead_memWrite_other hx, memRead_memWrite_other hx]
      exact h.byte x

theorem sameWrites_memFillFree {m₀ m₁ m m' : Memory} {base : Word} {draw : Nat} (h : SameWrites m₀ m₁ m m')
    (count : Nat) : SameWrites m₀ m₁ (memFillFree m base draw count) (memFillFree m' base draw count) := by
  induction count with
  | zero => exact h
  | succ c ih => exact sameWrites_memWrite ih

/-- Two states that agree on everything but memory, their memories reached from `m₀` and `m₁` by the same writes. -/
structure Twins (m₀ m₁ : Memory) (s u : State) : Prop where
  same : u = { s with mem := u.mem }
  mem : SameWrites m₀ m₁ s.mem u.mem

section

variable {m₀ m₁ : Memory} {s u : State}

theorem twins_eng (h : Twins m₀ m₁ s u) : u.eng = s.eng := by rw [h.same]

theorem twins_setEngine (h : Twins m₀ m₁ s u) (e : Engine) : Twins m₀ m₁ (setEngine e s) (setEngine e u) :=
  ⟨congrArg (setEngine e) h.same, h.mem⟩

theorem twins_setResult (h : Twins m₀ m₁ s u) (status len : Word) :
    Twins m₀ m₁ (setResult status len s) (setResult status len u) :=
  ⟨congrArg (setResult status len) h.same, h.mem⟩

theorem twins_storeByte (h : Twins m₀ m₁ s u) (a : Word) (v : Byte) :
    Twins m₀ m₁ (storeByte a v s) (storeByte a v u) := by
  obtain ⟨hsame, hmem⟩ := h
  rw [hsame]
  exact ⟨rfl, sameWrites_memWrite hmem⟩

theorem twins_forgetWindow (h : Twins m₀ m₁ s u) (w : Window) :
    Twins m₀ m₁ (forgetWindow w s) (forgetWindow w u) := by
  obtain ⟨hsame, hmem⟩ := h
  rw [hsame]
  exact ⟨rfl, sameWrites_memFillFree hmem w.len⟩

theorem twins_setRun (h : Twins m₀ m₁ s u) (r : Word) : Twins m₀ m₁ (setRun r s) (setRun r u) := by
  rw [setRun, setRun, twins_eng h]
  exact twins_setEngine h _

theorem twins_nextInputBit (h : Twins m₀ m₁ s u) : Twins m₀ m₁ (nextInputBit s) (nextInputBit u) := by
  rw [nextInputBit, nextInputBit, twins_eng h]
  exact twins_setEngine h _

theorem twins_complete (h : Twins m₀ m₁ s u) : Twins m₀ m₁ (complete s) (complete u) := by
  rw [complete, complete, twins_eng h]
  exact twins_setResult h _ _

theorem twins_raiseError (h : Twins m₀ m₁ s u) (e : ErrorKind) :
    Twins m₀ m₁ (raiseError e s) (raiseError e u) := by
  rw [raiseError, raiseError, twins_eng h]
  exact twins_setResult (twins_forgetWindow h _) _ _

/-- PutBit looks at the engine alone: it has room in both states or in neither. -/
theorem twins_putBit (h : Twins m₀ m₁ s u) (b : Bool) :
    (putBit b s = none ∧ putBit b u = none) ∨
      ∃ c d, putBit b s = some c ∧ putBit b u = some d ∧ Twins m₀ m₁ c d := by
  simp only [putBit, twins_eng h]
  split
  · exact .inl ⟨rfl, rfl⟩
  · exact .inr ⟨_, _, rfl, rfl, twins_setEngine (twins_storeByte h _ _) _⟩

theorem twins_countOne (h : Twins m₀ m₁ s u) : Twins m₀ m₁ (countOne s) (countOne u) := by
  have hrun := twins_setRun h (increment s.eng.run)
  simp only [countOne, twins_eng h, twins_eng hrun]
  split
  · rcases twins_putBit hrun false with ⟨hs, hu⟩ | ⟨c, d, hs, hu, hcd⟩ <;> rw [hs, hu]
    · exact twins_raiseError hrun _
    · exact twins_nextInputBit (twins_setRun hcd 0)
  · exact twins_nextInputBit hrun

theorem twins_encStep (h : Twins m₀ m₁ s u) (hbit : s.eng.i ≠ s.eng.n → getBit u = getBit s) :
    Twins m₀ m₁ (encStep s) (encStep u) := by
  simp only [encStep, twins_eng h]
  split
  · exact twins_complete h
  · next hmore =>
    rw [hbit hmore]
    rcases twins_putBit h (getBit s) with ⟨hs, hu⟩ | ⟨c, d, hs, hu, hcd⟩ <;> simp only [hs, hu]
    · exact twins_raiseError h _
    · split
      · exact twins_countOne hcd
      · exact twins_nextInputBit (twins_setRun hcd 0)

theorem twins_decStep (h : Twins m₀ m₁ s u) (hbit : s.eng.i ≠ s.eng.n → getBit u = getBit s) :
    Twins m₀ m₁ (decStep s) (decStep u) := by
  simp only [decStep, twins_eng h]
  split
  · split
    · exact twins_raiseError h _
    · exact twins_complete h
  · next hmore =>
    rw [hbit hmore]
    split
    · split
      · exact twins_raiseError h _
      · exact twins_nextInputBit (twins_setRun h 0)
    · rcases twins_putBit h (getBit s) with ⟨hs, hu⟩ | ⟨c, d, hs, hu, hcd⟩ <;> simp only [hs, hu]
      · exact twins_raiseError h _
      · rw [twins_eng hcd]
        exact twins_nextInputBit (twins_setRun hcd _)

/-- An engine step of twins that read the same input bit gives twins. -/
theorem twins_engineStep (h : Twins m₀ m₁ s u) (hbit : s.eng.i ≠ s.eng.n → getBit u = getBit s) :
    Twins m₀ m₁ (engineStep s) (engineStep u) := by
  simp only [engineStep, twins_eng h]
  split
  · exact twins_encStep h hbit
  · exact twins_decStep h hbit

end

/-- Settles O26: the two states start as twins, and the bit the step reads is one of the input bits they share. -/
theorem engineReadsOnlyInputBits : Obligations.EngineReadsOnlyInputBits := by
  intro s m hwf hwf' hle hbits
  have hstart : Twins s.mem m s { s with mem := m } := ⟨rfl, hwf, hwf', fun _ => .inr ⟨rfl, rfl⟩⟩
  have hend := twins_engineStep hstart fun hmore => hbits _ (toNat_lt_of_le_of_ne hle hmore)
  exact ⟨fun m' => congrArg (fun t : State => { t with mem := m' }) hend.same, hend.mem.byte⟩

end Sys2Proof.Machine

namespace Sys2Proof.Machine

/-! # Proofs of the family 30_encoding.md -/

/-! ## The command word (30_encoding.md R74, R75, R79) -/

/-- The two fields together are the whole word. -/
theorem ignoredField_append_opField (w : Word) : ignoredField w ++ opField w = w :=
  (BitVec.extractLsb'_append_extractLsb'_eq_extractLsb' rfl).trans BitVec.extractLsb'_eq_self

theorem opOf_decodeCommand (w : Word) : opOf (decodeCommand w) = opField w := by
  have hlt := (opField w).isLt
  unfold decodeCommand
  apply BitVec.eq_of_toNat_eq
  split
  case h_1 h => exact h.symm
  case h_2 h => exact h.symm
  case h_3 h => exact h.symm
  case h_4 h0 h1 h2 =>
    show 3 = (opField w).toNat
    simp only [imp_false] at h0 h1 h2
    omega

theorem ignoredOf_decodeCommand (w : Word) : ignoredOf (decodeCommand w) = ignoredField w := by
  unfold decodeCommand
  split <;> rfl

theorem encode_decodeCommand (w : Word) : encode (decodeCommand w) = w := by
  rw [encode, opOf_decodeCommand, ignoredOf_decodeCommand, ignoredField_append_opField]

/-- The fields of an encoded command are its own, and they select its constructor again. -/
theorem decodeCommand_encode (i : Instr) : decodeCommand (encode i) = i := by
  have hwf : instrWf i = true := by cases i <;> rfl
  obtain ⟨hop, hignored, -⟩ := Laws.FieldPlaces.of_append hwf
  unfold decodeCommand
  rw [hop, hignored]
  cases i <;> rfl

/-- Settles O2: the decoder reads both fields back, and the encoder puts both in their places. -/
theorem commandEncodingRoundTrip : Obligations.CommandEncodingRoundTrip :=
  ⟨fun i => (decodeBits_word (encode i)).trans (congrArg Except.ok (decodeCommand_encode i)), encode_decodeCommand⟩

/-- Settles O1, by decoding each of the words. -/
theorem writtenCommandWordsDecode : Obligations.WrittenCommandWordsDecode := by
  unfold Obligations.WrittenCommandWordsDecode
  decide

/-- Settles O3: OP selects the constructor, and no arm of `exec` reads field A. -/
theorem commandDependsOnOpAlone : Obligations.CommandDependsOnOpAlone := by
  intro v w s h
  have hop : opField v = opField w := h
  unfold decodeCommand
  rw [hop]
  split <;> rfl

/-! ## Register accesses (30_encoding.md R70 to R73) -/

/-- A 32-bit access at the address of a register reaches that register. -/
theorem busRegister_regOffset (base : Nat) (r : Reg) : busRegister base 4 (base + regOffset r) = some r :=
  (busReachesExactlyEightRegisters ..).2 ⟨rfl, rfl⟩

/-- An access that is none of those reaches no register. -/
theorem busRegister_eq_none {base width addr : Nat} (h : ∀ r : Reg, ¬ (width = 4 ∧ addr = base + regOffset r)) :
    busRegister base width addr = none :=
  Option.eq_none_iff_forall_ne_some.2 fun r hr => h r ((busReachesExactlyEightRegisters ..).1 hr)

theorem hostOp_registerRead (s : State) (r : Reg) (t : Nat) :
    hostOp (.busRead 4 (s.platform.regBase + regOffset r) t) s = .next (tempWrite t (regRead r s) s) := by
  simp only [hostOp, busRegister_regOffset]

theorem hostOp_registerWrite (s : State) (r : Reg) (w : Word) :
    hostOp (.busWrite 4 (s.platform.regBase + regOffset r) w) s = regWrite r w s := by
  simp only [hostOp, busRegister_regOffset]

/-- Settles O32: such an access reaches no register, and both bus lines refuse it then. -/
theorem otherAccessShapesAreRefused : Obligations.OtherAccessShapesAreRefused := by
  intro s width addr w t h
  have hnone := busRegister_eq_none h
  constructor <;> simp only [hostOp, hnone]

/-- Settles O30: a register read is `tempWrite` of the register's value. -/
theorem registerReadGivesValue : Obligations.RegisterReadGivesValue := by
  intro s r t htemps
  have hread : tempRead (tempWrite t (regRead r s) s) t = regRead r s := tempRead_tempWrite_same htemps
  refine ⟨_, hostOp_registerRead s r t, rfl, fun v hv => tempRead_tempWrite_other hv, ?_, ?_⟩
  · rw [hread]
    cases r <;> rfl
  · rintro rfl ⟨hreserved, -⟩
    rw [hread]
    exact hreserved

/-- Settles O31: a register write is `regWrite` of its register. -/
theorem registerWriteEffects : Obligations.RegisterWriteEffects := by
  intro s w wr
  have hwr : ∀ r, wr r = regWrite r w s := fun r => hostOp_registerWrite s r w
  exact ⟨hwr .k, hwr .inAddr, hwr .inLen, hwr .outAddr, hwr .outCap, hwr .status, hwr .outLen, hwr .cmd⟩

/-! ## Branches of the host (30_encoding.md R80) -/

/-- Settles O37, by the two branches of the test. -/
theorem branchFollowsMaskedTemporary : Obligations.BranchFollowsMaskedTemporary := by
  intro s t label m
  exact ⟨fun htaken => congrArg Host.Outcome.next (if_pos htaken),
    fun hzero => congrArg Host.Outcome.next (if_neg fun htaken => htaken hzero)⟩

end Sys2Proof.Machine

namespace Sys2Proof.Machine

/-! # Proofs of the family 40_command.md -/

/-! ## The commands (40_command.md R100 to R105) -/

theorem exec_of_busy {i : Instr} {s : State} (h : busy s = true) : exec i s = .next s := by
  cases i <;> simp only [exec, execNop, execEncode, execDecode, execReserved, unlessBusy_of_busy h]

/-- NOP's own effect is no effect, so the busy test changes nothing about it. -/
theorem exec_nop (a : BitVec 30) (s : State) : exec (.nop a) s = .next s := by
  rcases hb : busy s
  · exact unlessBusy_of_idle hb
  · exact exec_of_busy hb

theorem exec_reserved_of_idle {a : BitVec 30} {s : State} (h : busy s = false) :
    exec (.reserved a) s = .next (completeInvalid s) :=
  unlessBusy_of_idle (act := fun s => .next (completeInvalid s)) h

/-- OP alone tells a NOP and the reserved command (R75). -/
theorem eq_nop_of_opOf {i : Instr} (h : opOf i = 0) : ∃ a, i = .nop a := by
  cases i with
  | nop a => exact ⟨a, rfl⟩
  | encode a | decode a | reserved a => exact absurd h (by simp [opOf])

theorem eq_reserved_of_opOf {i : Instr} (h : opOf i = 3) : ∃ a, i = .reserved a := by
  cases i with
  | reserved a => exact ⟨a, rfl⟩
  | nop a | encode a | decode a => exact absurd h (by simp [opOf])

/-- Settles O5: NOP answers its state, and the word's OP field is the command's. -/
theorem nopHasNoEffect : Obligations.NopHasNoEffect :=
  ⟨exec_nop, fun w hw => eq_nop_of_opOf ((opOf_decodeCommand w).trans hw), State.reset, exec_nop .., rfl⟩

/-- Settles O6: every arm of `exec` begins with the busy test. -/
theorem commandIgnoredWhileBusy : Obligations.CommandIgnoredWhileBusy := fun _ _ h => exec_of_busy h

/-- Settles O7: the completion is `completeInvalid`, whose STATUS word is 0xE. -/
theorem reservedOpReportsInvalidParameter : Obligations.ReservedOpReportsInvalidParameter := by
  intro a s
  refine ⟨fun hidle => ?_, exec_of_busy, fun w hw => eq_reserved_of_opOf ((opOf_decodeCommand w).trans hw)⟩
  rw [exec_reserved_of_idle hidle]
  rfl

/-- Settles O8: this is `start_of_ok` with the STATUS word and the latched engine written out. -/
theorem encodeStartLatchesOperands : Obligations.EncodeStartLatchesOperands := by
  intro a s hidle hp hw
  rw [(exec_start_of_idle hidle).1, start_of_ok hp hw]
  rfl

/-- Settles O9: as for ENCODE, with the other `op`. -/
theorem decodeStartLatchesOperands : Obligations.DecodeStartLatchesOperands := by
  intro a s hidle hp hw
  rw [(exec_start_of_idle hidle).2, start_of_ok hp hw]
  rfl

/-! ## Turns of the engine (40_command.md R107, R108) -/

theorem step_of_engineNext {s : State} {rest : List Agent} (h : s.agenda = .engine :: rest) :
    step s = .next (engineTurn (setAgenda rest s)) := by simp only [step, h, agentTurn]

theorem step_of_busy_unnamed {s : State} (h : s.agenda = []) (hb : busy s = true) :
    step s = .next (engineStep s) := by
  simp [step, h, defaultAgent, hb, agentTurn, engineTurn_of_busy hb]

/-- Settles O16: a named turn is `engineTurn`, which asks BUSY; a busy machine's default agent is the engine. -/
theorem engineStepsExactlyWhileBusy : Obligations.EngineStepsExactlyWhileBusy := by
  intro s rest
  refine ⟨fun h hb => ?_, fun h hidle => ?_, step_of_busy_unnamed⟩
  · rw [step_of_engineNext h, engineTurn_of_busy (s := setAgenda rest s) hb]
    rfl
  · rw [step_of_engineNext h, engineTurn_of_idle (s := setAgenda rest s) hidle]
    rfl

/-- A run goes on from the state its first step answers. -/
theorem run_succ_of_next {M : Host.Core} {m : Nat} {s t : M.State} (h : M.step s = .next t) :
    M.run (m + 1) s = M.run m t := by
  simp only [Host.Core.run, h]

theorem engineTurn_setAgenda (rest : List Agent) (s : State) :
    engineTurn (setAgenda rest s) = setAgenda rest (engineTurn s) := by
  rcases hb : busy s
  · rw [engineTurn_of_idle hb, engineTurn_of_idle (s := setAgenda rest s) hb]
  · rw [engineTurn_of_busy hb, engineTurn_of_busy (s := setAgenda rest s) hb,
      bystander_engineStep (bystander_setAgenda rest)]

/-- Settles O17, by induction on the turns: what stands in the agenda is a bystander of each. -/
theorem engineTurnsAreMachineSteps : Obligations.EngineTurnsAreMachineSteps := by
  intro m
  induction m with
  | zero =>
    rintro s _ rfl
    rfl
  | succ m ih =>
    intro s rest h
    have hstep : step s = .next (setAgenda (List.replicate m Agent.engine ++ rest) (engineTurn s)) :=
      (step_of_engineNext h).trans (congrArg Host.Outcome.next (engineTurn_setAgenda ..))
    calc Host.Core.run core (m + 1) s
        = Host.Core.run core m (setAgenda (List.replicate m Agent.engine ++ rest) (engineTurn s)) :=
          run_succ_of_next (M := core) hstep
      _ = .next (engineRun m (setAgenda rest (engineTurn s))) := ih _ rest rfl
      _ = .next (engineRun (m + 1) (setAgenda rest s)) := by rw [engineRun, engineTurn_setAgenda]

/-- At the end of the input, with no malformed ending, a step of either operation completes it. -/
theorem engineStep_eq_complete {s : State} (hend : s.eng.i = s.eng.n)
    (hwell : s.eng.op = .dec → s.eng.run ≠ s.eng.k) : engineStep s = complete s := by
  unfold engineStep
  split
  · exact if_pos hend
  · next hop => exact (if_pos hend).trans (if_neg (hwell hop))

/-- Settles O19: the completion is `complete`, whose STATUS word is 2. -/
theorem completionStepReportsLength : Obligations.CompletionStepReportsLength := by
  intro s _ hend hwell
  rw [engineStep_eq_complete hend hwell]
  rfl

/-! ## What does not reach a running operation (40_command.md R106, R100; 70_reset_and_hazards.md R185, R186) -/

/-- The operand registers, each changed by a function of its own. -/
def mapOperands (k inAddr inLen outAddr outCap : Word → Word) (s : State) : State :=
  { s with k := k s.k, inAddr := inAddr s.inAddr, inLen := inLen s.inLen, outAddr := outAddr s.outAddr,
           outCap := outCap s.outCap }

/-- Whatever is done to the operand registers is a bystander of the engine, which reads its latched copies. -/
theorem bystander_mapOperands (k inAddr inLen outAddr outCap : Word → Word) :
    Bystander (mapOperands k inAddr inLen outAddr outCap) where
  eng _ := rfl
  mem _ := rfl
  setEngine _ _ := rfl
  storeByte _ _ _ := rfl
  forgetWindow _ _ := rfl
  setResult _ _ _ := rfl

/-- Settles O33: each of the five writes is a `mapOperands`. -/
theorem operandWritesDoNotReachRunningOperation : Obligations.OperandWritesDoNotReachRunningOperation := by
  intro s w _
  exact ⟨bystander_engineStep (bystander_mapOperands (fun _ => w) id id id id) s,
    bystander_engineStep (bystander_mapOperands id (fun _ => w) id id id) s,
    bystander_engineStep (bystander_mapOperands id id (fun _ => w) id id) s,
    bystander_engineStep (bystander_mapOperands id id id (fun _ => w) id) s,
    bystander_engineStep (bystander_mapOperands id id id id (fun _ => w)) s⟩

/-- From `s` to `t` nothing that a running operation works with has changed. -/
abbrev OperationUndisturbed (s t : State) : Prop :=
  t.eng = s.eng ∧ t.status = s.status ∧ t.outLen = s.outLen ∧ t.platform = s.platform ∧
    ∀ x : Word, windowHas (inWindow s.eng) x = true ∨ windowHas (outWindow s.eng) x = true →
      memRead t.mem x = memRead s.mem x

/-- A line of the host ignores the command, misses both windows, or writes no field the operation works with. -/
theorem operationUndisturbed_hostOp {op : HostOp} {s t : State} (hb : busy s = true) (h : hostOp op s = .next t) :
    OperationUndisturbed s t := by
  rcases hostOp_next_cases h with ⟨i, h⟩ | rfl | ⟨_, _, _, _, _, rfl⟩ | ⟨a, v, -, hmiss, rfl⟩ | ⟨x, v, rfl | rfl⟩ |
      ⟨label, rfl⟩
  case inl =>
    obtain rfl : s = t := Host.Outcome.next.inj ((exec_of_busy hb).symm.trans h)
    exact ⟨rfl, rfl, rfl, rfl, fun _ _ => rfl⟩
  case inr.inr.inr.inl =>
    refine ⟨rfl, rfl, rfl, rfl, fun x hx => memRead_memWrite_other ?_⟩
    rintro rfl
    exact hmiss ⟨hb, hx⟩
  all_goals exact ⟨rfl, rfl, rfl, rfl, fun _ _ => rfl⟩

/-- Settles O38: the turn is no line or one line, and moving on to the next line disturbs nothing. -/
theorem hostCannotDisturbRunningOperation : Obligations.HostCannotDisturbRunningOperation := by
  intro s t hb h
  rcases hostTurn_next_cases h with rfl | ⟨op, -, h⟩
  · exact ⟨rfl, rfl, rfl, rfl, fun _ _ => rfl⟩
  · exact operationUndisturbed_hostOp (s := hostAdvance s) hb h

/-! ## The operation as a scan of its input bits (41_encode.md R122, 42_decode.md R142) -/

/-- What a scan has come to: its run counter and the output bits so far. -/
structure Scan where
  run : Nat
  out : List Bool

/-- Write the bits `w` where the capacity has room for all of them, and set the run counter (R109). -/
def Scan.emit (cap : Nat) (c : Scan) (w : List Bool) (run : Nat) : Except ErrorKind Scan :=
  if (c.out ++ w).length ≤ cap then .ok { run := run, out := c.out ++ w } else .error .capacityExceeded

/-- What one input bit does to a scan. -/
def scanBit (op : Op) (k cap : Nat) (c : Scan) (b : Bool) : Except ErrorKind Scan :=
  match op with
  | .enc => if b = true ∧ c.run + 1 = k then c.emit cap [true, false] 0 else c.emit cap [b] (runAfter b c.run)
  | .dec =>
    if c.run = k then (if b then .error .malformedStuffedInput else .ok { run := 0, out := c.out })
    else c.emit cap [b] (runAfter b c.run)

/-- The scan of a bit sequence from run counter 0 and an empty output. -/
def scanBits (op : Op) (k cap : Nat) (x : List Bool) : Except ErrorKind Scan :=
  x.foldlM (scanBit op k cap) { run := 0, out := [] }

/-- What the end of the input does to a scan (R108, R145). -/
def scanEnd (op : Op) (k : Nat) (c : Scan) : Except ErrorKind (List Bool) :=
  if op = .dec ∧ c.run = k then .error .malformedStuffedInput else .ok c.out

/-- How an operation on the input bits `x` ends: with an error, or with its output bits. -/
def scanAll (op : Op) (k cap : Nat) (x : List Bool) : Except ErrorKind (List Bool) :=
  (scanBits op k cap x).bind (scanEnd op k)

theorem emit_of_room {cap run : Nat} {c : Scan} {w : List Bool} (h : c.out.length + w.length ≤ cap) :
    c.emit cap w run = .ok { run := run, out := c.out ++ w } := if_pos (by simpa using h)

theorem emit_of_full {cap run : Nat} {c : Scan} {w : List Bool} (h : cap < c.out.length + w.length) :
    c.emit cap w run = .error .capacityExceeded := if_neg (by simpa using h)

theorem emit_of_spent {cap run : Nat} {c : Scan} {b : Bool} {w : List Bool} (h : cap ≤ c.out.length) :
    c.emit cap (b :: w) run = .error .capacityExceeded :=
  emit_of_full (by rw [List.length_cons]; omega)

section

variable {k cap : Nat} {c : Scan} {b : Bool}

theorem scanBit_enc_copy (h : ¬ (b = true ∧ c.run + 1 = k)) (hroom : c.out.length < cap) :
    scanBit .enc k cap c b = .ok { run := runAfter b c.run, out := c.out ++ [b] } :=
  (if_neg h).trans (emit_of_room hroom)

theorem scanBit_enc_stuff (hk : c.run + 1 = k) (hroom : c.out.length + 1 < cap) :
    scanBit .enc k cap c true = .ok { run := 0, out := c.out ++ [true, false] } :=
  (if_pos ⟨rfl, hk⟩).trans (emit_of_room hroom)

theorem scanBit_enc_full (hfull : cap ≤ c.out.length) : scanBit .enc k cap c b = .error .capacityExceeded := by
  by_cases h : b = true ∧ c.run + 1 = k
  · exact (if_pos h).trans (emit_of_spent hfull)
  · exact (if_neg h).trans (emit_of_spent hfull)

theorem scanBit_enc_stuff_full (hk : c.run + 1 = k) (hfull : cap ≤ c.out.length + 1) :
    scanBit .enc k cap c true = .error .capacityExceeded :=
  (if_pos ⟨rfl, hk⟩).trans (emit_of_full (Nat.lt_succ_of_le hfull))

theorem scanBit_dec_copy (h : c.run ≠ k) (hroom : c.out.length < cap) :
    scanBit .dec k cap c b = .ok { run := runAfter b c.run, out := c.out ++ [b] } :=
  (if_neg h).trans (emit_of_room hroom)

theorem scanBit_dec_full (h : c.run ≠ k) (hfull : cap ≤ c.out.length) :
    scanBit .dec k cap c b = .error .capacityExceeded :=
  (if_neg h).trans (emit_of_spent hfull)

theorem scanBit_dec_drop (h : c.run = k) : scanBit .dec k cap c false = .ok { run := 0, out := c.out } := if_pos h

theorem scanBit_dec_malformed (h : c.run = k) : scanBit .dec k cap c true = .error .malformedStuffedInput := if_pos h

end

theorem scanBits_concat (op : Op) (k cap : Nat) (x : List Bool) (b : Bool) :
    scanBits op k cap (x ++ [b]) = (scanBits op k cap x).bind fun c => scanBit op k cap c b := by
  simp only [scanBits, List.foldlM_append, List.foldlM_cons, List.foldlM_nil, bind_pure]
  rfl

/-! ## Sequences and ranges of memory -/

theorem seqBits_succ (m : Memory) (a : Word) (n : Nat) : seqBits m a (n + 1) = seqBits m a n ++ [seqBit m a n] := by
  simp [seqBits, List.range_succ]

theorem seqBits_congr {m m' : Memory} {a : Word} {n : Nat} (h : ∀ j < n, seqBit m' a j = seqBit m a j) :
    seqBits m' a n = seqBits m a n :=
  List.map_congr_left fun j hj => h j (List.mem_range.1 hj)

/-- A byte outside a range is outside every shorter one from the same base. -/
theorem windowHas_eq_false_of_le {a x : Word} {l n : Nat} (h : windowHas { base := a, len := n } x = false)
    (hle : l ≤ n) : windowHas { base := a, len := l } x = false := by
  simp only [windowHas, decide_eq_false_iff_not] at h ⊢
  omega

/-! ## A running operation -/

/-- The machine right after a start that passed its tests (R105). -/
abbrev started (op : Op) (s : State) : State := setResult statusRunning 0 (setEngine (latched op s) s)

/-- `t` is reached inside the operation `op` that was started in `s`, and the output bits written so far are `out`:
beside the engine's cursors only the bytes that `out` touches have changed. -/
structure Written (op : Op) (s t : State) (out : List Bool) : Prop where
  frame : ∃ m i o r a,
    t = { started op s with mem := m, eng := { latched op s with i := i, o := o, run := r, acc := a } }
  memWf : memoryWf t.mem = true
  current : OutputByteCurrent t
  length : t.eng.o.toNat = out.length
  bits : seqBits t.mem s.outAddr out.length = out
  outside {x : Word} : windowHas { base := s.outAddr, len := (out.length + 7) / 8 } x = false →
    memRead t.mem x = memRead s.mem x

section

variable {op : Op} {s t d : State} {out : List Bool}

theorem written_outAddr (h : Written op s t out) : t.eng.outAddr = s.outAddr := by
  obtain ⟨_, _, _, _, _, rfl⟩ := h.frame
  rfl

theorem written_capBits (h : Written op s t out) : t.eng.capBits.toNat = 8 * s.outCap.toNat := by
  obtain ⟨_, _, _, _, _, rfl⟩ := h.frame
  exact capacityBits_toNat s.outCap

theorem putBit_eq_none_iff_of_written {b : Bool} (h : Written op s t out) :
    putBit b t = none ↔ 8 * s.outCap.toNat ≤ out.length := by
  rw [putBit_eq_none_iff, written_capBits h, h.length]

theorem length_lt_of_putBit {b : Bool} (h : Written op s t out) (hput : putBit b t = some d) :
    out.length < 8 * s.outCap.toNat := by
  by_contra hfull
  simp [(putBit_eq_none_iff_of_written h).2 (Nat.not_lt.1 hfull)] at hput

theorem written_setRun {r : Word} (h : Written op s t out) : Written op s (setRun r t) out := by
  obtain ⟨⟨_, _, _, _, _, rfl⟩, hmem, hcur, hlen, hbits, hout⟩ := h
  exact ⟨⟨_, _, _, _, _, rfl⟩, hmem, hcur, hlen, hbits, hout⟩

theorem written_nextInputBit (h : Written op s t out) : Written op s (nextInputBit t) out := by
  obtain ⟨⟨_, _, _, _, _, rfl⟩, hmem, hcur, hlen, hbits, hout⟩ := h
  exact ⟨⟨_, _, _, _, _, rfl⟩, hmem, hcur, hlen, hbits, hout⟩

/-- PutBit appends its bit to the output (R109). -/
theorem written_putBit {b : Bool} (h : Written op s t out) (hput : putBit b t = some d)
    (hlt : out.length + 1 < 2 ^ 32) : Written op s d (out ++ [b]) := by
  have haddr := written_outAddr h
  obtain ⟨hroom, hd⟩ := putBit_eq_some hput
  obtain ⟨d', hput', -, hod, hmemd, hcurd, hbit, hkept, hother⟩ :=
    putBit_spec (b := b) h.memWf h.current hroom (h.length ▸ hlt)
  obtain rfl : d = d' := Option.some.inj (hput.symm.trans hput')
  rw [haddr, h.length] at hbit hkept
  refine ⟨?_, hmemd, hcurd, ?_, ?_, fun {x} hx => ?_⟩
  · obtain ⟨_, _, _, _, _, rfl⟩ := h.frame
    exact ⟨_, _, _, _, _, hd⟩
  · simp [hod, h.length]
  · rw [List.length_append, List.length_singleton, seqBits_succ, hbit, seqBits_congr hkept, h.bits]
  · rw [List.length_append, List.length_singleton] at hx
    rw [hother x ?_, h.outside (windowHas_eq_false_of_le hx (by omega))]
    rintro rfl
    refine Bool.eq_false_iff.1 hx (windowHas_iff.2 ⟨out.length / 8, ?_, ?_⟩)
    · simp only
      omega
    · rw [outByteAddress, haddr, h.length]

/-- Behind the last output bit, the current byte is 0 (R111). -/
theorem written_padding (h : Written op s t out) {j : Nat} (hj : out.length ≤ j)
    (hlast : j < 8 * ((out.length + 7) / 8)) : seqBit t.mem s.outAddr j = false := by
  obtain ⟨hread, hlow⟩ := h.current (by rw [h.length]; omega)
  rw [outByteAddress, written_outAddr h, h.length] at hread
  have hbyte : j / 8 = out.length / 8 := by omega
  rw [seqBit, hbyte, hread]
  exact getLsbD_of_mod_eq_zero hlow (by rw [h.length]; omega)

end

/-! ## The engine follows the scan -/

/-- The host's temporaries thrown away: no start asks that they are in canonical form, as `MachineInv` does. -/
def forgetTemps (s : State) : State := { s with host := { s.host with temps := [] } }

theorem bystander_forgetTemps : Bystander forgetTemps where
  eng _ := rfl
  mem _ := rfl
  setEngine _ _ := rfl
  storeByte _ _ _ := rfl
  forgetWindow _ _ := rfl
  setResult _ _ _ := rfl

/-- `t` is reached from the start of `op` in `s` by consuming `m` input bits, which have brought the scan to `c`. -/
structure Running (op : Op) (s : State) (m : Nat) (t : State) (c : Scan) : Prop where
  written : Written op s t c.out
  consumed : t.eng.i.toNat = m
  run : t.eng.run.toNat = c.run
  inv : MachineInv (forgetTemps t)

/-- The state `t` of a scan that has come to `c` or ended in an error. -/
def Reached (op : Op) (s : State) (m : Nat) (t : State) (result : Except ErrorKind Scan) : Prop :=
  match result with
  | .error e => t.status = statusFailed e ∧ t.outLen = 0
  | .ok c => Running op s m t c

section

variable {op : Op} {s t : State} {m : Nat} {c : Scan}

theorem running_started (hmem : memoryWf s.mem = true) (hp : ParamsOk op s) (hw : WindowsOk s) :
    Running op s 0 (started op s) { run := 0, out := [] } where
  written := ⟨⟨_, _, _, _, _, rfl⟩, hmem, fun h => absurd rfl h, rfl, rfl, fun _ => rfl⟩
  consumed := rfl
  run := rfl
  inv := ⟨hmem, rfl, statusLegal_running, fun _ => rfl, fun _ => engineLegal_latched hp hw⟩

theorem running_busy (h : Running op s m t c) : busy t = true := by
  obtain ⟨_, _, _, _, _, rfl⟩ := h.written.frame
  exact statusBusy_running

theorem running_engineLegal (h : Running op s m t c) : EngineLegal t := by
  obtain ⟨-, -, -, -, heng⟩ := h.inv
  have hb : busy t = true := running_busy h
  exact heng hb

theorem running_op (h : Running op s m t c) : t.eng.op = op := by
  obtain ⟨_, _, _, _, _, rfl⟩ := h.written.frame
  rfl

theorem running_k (h : Running op s m t c) : t.eng.k = s.k := by
  obtain ⟨_, _, _, _, _, rfl⟩ := h.written.frame
  rfl

theorem running_n (h : Running op s m t c) : t.eng.n = s.inLen := by
  obtain ⟨_, _, _, _, _, rfl⟩ := h.written.frame
  rfl

theorem running_inWindow (h : Running op s m t c) : inWindow t.eng = operandInWindow s := by
  obtain ⟨_, _, _, _, _, rfl⟩ := h.written.frame
  rfl

theorem running_outWindow (h : Running op s m t c) : outWindow t.eng = operandOutWindow s := by
  obtain ⟨_, _, _, _, _, rfl⟩ := h.written.frame
  exact outWindow_latched op s

/-- The output so far fits, so it touches the output window only. -/
theorem running_length_le (h : Running op s m t c) : c.out.length ≤ 8 * s.outCap.toNat := by
  obtain ⟨-, -, -, hroom, -⟩ := running_engineLegal h
  rwa [h.written.length, written_capBits h.written] at hroom

/-- The operation does not write its input: the bit a step reads is the one that stood there at the start. -/
theorem getBit_of_running (h : Running op s m t c) (hm : m < s.inLen.toNat) : getBit t = seqBit s.mem s.inAddr m := by
  obtain ⟨-, -, -, -, -, -, hover, -⟩ := running_engineLegal h
  rw [running_inWindow h, running_outWindow h, windowsOverlap_eq_false_iff] at hover
  have hin : windowHas (operandInWindow s) (s.inAddr + BitVec.ofNat 32 (m / 8)) = true :=
    windowHas_iff.2 ⟨m / 8, by simp only [operandInWindow]; omega, rfl⟩
  have hout : windowHas (operandOutWindow s) (s.inAddr + BitVec.ofNat 32 (m / 8)) = false :=
    Bool.eq_false_iff.2 fun hout => hover _ ⟨hin, hout⟩
  have hroom := running_length_le h
  have hkept := h.written.outside (windowHas_eq_false_of_le hout (by omega))
  have haddr : t.eng.inAddr = s.inAddr := congrArg Window.base (running_inWindow h)
  rw [getBit, h.consumed, haddr, seqBit, hkept, seqBit]

/-- A step that goes on from `d` has consumed one more input bit. -/
theorem running_nextInputBit {d : State} {r : Word} {run : Nat} {out : List Bool} (h : Running op s m t c)
    (hm : m < s.inLen.toNat) (hstep : engineStep t = nextInputBit (setRun r d)) (hi : d.eng.i = t.eng.i)
    (hr : r.toNat = run) (hw : Written op s d out) :
    Running op s (m + 1) (engineStep t) { run := run, out := out } where
  written := hstep ▸ written_nextInputBit (written_setRun hw)
  consumed := by
    rw [hstep]
    show (increment d.eng.i).toNat = m + 1
    have hn := s.inLen.isLt
    rw [hi, increment_toNat (by rw [h.consumed]; omega), h.consumed]
  run := by
    rw [hstep]
    exact hr
  inv := by
    have hb : busy t = true := running_busy h
    have hinv := machineInv_engineTurn h.inv
    rwa [engineTurn_of_busy (s := forgetTemps t) hb, bystander_engineStep bystander_forgetTemps] at hinv

theorem reached_of_raiseError {u : State} {e : ErrorKind} (h : engineStep t = raiseError e u) :
    Reached op s m (engineStep t) (.error e) := by
  rw [h]
  exact ⟨rfl, rfl⟩

theorem putBit_keeps_i {b : Bool} {d : State} (h : putBit b t = some d) : d.eng.i = t.eng.i := by
  obtain ⟨-, rfl⟩ := putBit_eq_some h
  rfl

/-- The engine's test for the stuff position is the scan's. -/
theorem run_eq_k_iff (h : Running op s m t c) : t.eng.run = t.eng.k ↔ c.run = s.k.toNat := by
  rw [← h.run, ← running_k h, BitVec.toNat_inj]

theorem consumed_ne_n (h : Running op s m t c) (hm : m < s.inLen.toNat) : t.eng.i ≠ t.eng.n := by
  intro hend
  rw [← running_n h, ← hend, h.consumed] at hm
  exact Nat.lt_irrefl m hm

end

/-- An ENCODE step is `scanBit` of the next input bit (R122). -/
theorem reached_encStep {s t : State} {m : Nat} {c : Scan} (h : Running .enc s m t c) (hm : m < s.inLen.toNat) :
    Reached .enc s (m + 1) (engineStep t)
      (scanBit .enc s.k.toNat (8 * s.outCap.toNat) c (seqBit s.mem s.inAddr m)) := by
  have hstep : engineStep t = encStep t := by simp only [engineStep, running_op h]
  have hmore := consumed_ne_n h hm
  obtain ⟨-, hi, -, -, henc, -⟩ := running_engineLegal h
  have hcursors := henc (running_op h)
  have hlen := encodeCursors_room hcursors (toNat_lt_of_le_of_ne hi hmore)
  have hcount : (increment t.eng.run).toNat = c.run + 1 := by rw [increment_toNat_of_lt hcursors.1, h.run]
  rw [h.written.length] at hlen
  rw [← getBit_of_running h hm]
  rcases encStep_cases t with ⟨hend, -⟩ | ⟨-, hnone, hraise⟩ | ⟨u, -, hput, hcases⟩
  case inl => exact absurd hend hmore
  case inr.inl =>
    rw [scanBit_enc_full ((putBit_eq_none_iff_of_written h.written).1 hnone)]
    exact reached_of_raiseError (hstep.trans hraise)
  case inr.inr =>
    have hroom := length_lt_of_putBit h.written hput
    have hcopied := written_putBit h.written hput (by omega)
    have hiu := putBit_keeps_i hput
    obtain ⟨-, hrunu, hku⟩ := putBit_cursors hput (by rw [h.written.length]; omega)
    have hfull : increment t.eng.run = s.k ↔ c.run + 1 = s.k.toNat := by rw [← hcount, BitVec.toNat_inj]
    rw [hrunu, hku, running_k h, hfull] at hcases
    have hcounted : Written .enc s (setRun (increment t.eng.run) u) (c.out ++ [getBit t]) := written_setRun hcopied
    rcases hcases with ⟨hb, hnext⟩ | ⟨hb, hbelow, hnext⟩ | ⟨hb, hk, hnone, hraise⟩ | ⟨hb, hk, d, hstuff, hnext⟩ <;>
      rw [hb] at hcounted hcopied ⊢
    · rw [scanBit_enc_copy (by simp) hroom]
      exact running_nextInputBit h hm (hstep.trans hnext) hiu rfl hcopied
    · rw [scanBit_enc_copy (by simp [mt hfull.2 hbelow]) hroom]
      exact running_nextInputBit h hm (hstep.trans hnext) hiu hcount hcopied
    · rw [scanBit_enc_stuff_full hk (by simpa using (putBit_eq_none_iff_of_written hcounted).1 hnone)]
      exact reached_of_raiseError (hstep.trans hraise)
    · rw [scanBit_enc_stuff hk (by simpa using length_lt_of_putBit hcounted hstuff)]
      have hstuffed := written_putBit hcounted hstuff (by simpa using hlen)
      rw [List.append_assoc] at hstuffed
      exact running_nextInputBit h hm (hstep.trans hnext) ((putBit_keeps_i hstuff).trans hiu) rfl hstuffed

/-- A DECODE step is `scanBit` of the next input bit (R142). -/
theorem reached_decStep {s t : State} {m : Nat} {c : Scan} (h : Running .dec s m t c) (hm : m < s.inLen.toNat) :
    Reached .dec s (m + 1) (engineStep t)
      (scanBit .dec s.k.toNat (8 * s.outCap.toNat) c (seqBit s.mem s.inAddr m)) := by
  have hstep : engineStep t = decStep t := by simp only [engineStep, running_op h]
  have hmore := consumed_ne_n h hm
  obtain ⟨-, hi, -, -, -, hdec, -⟩ := running_engineLegal h
  obtain ⟨hrun, hoi⟩ := hdec (running_op h)
  rw [← getBit_of_running h hm]
  have hcases := decStep_cases t
  rw [run_eq_k_iff h] at hcases
  rcases hcases with ⟨hend, -⟩ | ⟨hend, -⟩ | ⟨-, hk, hb, hraise⟩ | ⟨-, hk, hb, hnext⟩ | ⟨-, hk, hnone, hraise⟩ |
      ⟨u, -, hk, hput, hnext⟩
  · exact absurd hend hmore
  · exact absurd hend hmore
  · rw [hb, scanBit_dec_malformed hk]
    exact reached_of_raiseError (hstep.trans hraise)
  · rw [hb, scanBit_dec_drop hk]
    exact running_nextInputBit h hm (hstep.trans hnext) rfl rfl h.written
  · rw [scanBit_dec_full (mt (run_eq_k_iff h).2 hk) ((putBit_eq_none_iff_of_written h.written).1 hnone)]
    exact reached_of_raiseError (hstep.trans hraise)
  · rw [scanBit_dec_copy (mt (run_eq_k_iff h).2 hk) (length_lt_of_putBit h.written hput)]
    have hlen : c.out.length + 1 < 2 ^ 32 := by
      have hn := s.inLen.isLt
      rw [h.written.length, h.consumed] at hoi
      omega
    obtain ⟨-, hrunu, -⟩ := putBit_cursors hput (by rwa [h.written.length])
    have hlt : t.eng.run.toNat < t.eng.k.toNat := toNat_lt_of_le_of_ne hrun hk
    refine running_nextInputBit h hm (hstep.trans hnext) (putBit_keeps_i hput) ?_ (written_putBit h.written hput hlen)
    rw [hrunu, runAfter]
    split
    · rw [increment_toNat_of_lt hlt, h.run]
    · rfl

section

variable {op : Op} {s : State}

theorem reached_engineStep {t : State} {m : Nat} {c : Scan} (h : Running op s m t c) (hm : m < s.inLen.toNat) :
    Reached op s (m + 1) (engineStep t)
      (scanBit op s.k.toNat (8 * s.outCap.toNat) c (seqBit s.mem s.inAddr m)) := by
  cases op
  · exact reached_encStep h hm
  · exact reached_decStep h hm

theorem engineRun_succ (m : Nat) (u : State) : engineRun (m + 1) u = engineTurn (engineRun m u) := by
  induction m generalizing u with
  | zero => rfl
  | succ m ih => exact ih (engineTurn u)

/-- An operation that has reported an error is over: further turns of the engine change nothing. -/
theorem engineTurn_of_failed {t : State} {e : ErrorKind} (h : t.status = statusFailed e) : engineTurn t = t :=
  engineTurn_of_idle (by rw [busy, h, statusBusy_failed])

/-- After `m` turns of the engine a started operation stands where the scan of its first `m` input bits stands. -/
theorem reached_engineRun (hmem : memoryWf s.mem = true) (hp : ParamsOk op s) (hw : WindowsOk s) {m : Nat}
    (hm : m ≤ s.inLen.toNat) :
    Reached op s m (engineRun m (started op s))
      (scanBits op s.k.toNat (8 * s.outCap.toNat) (seqBits s.mem s.inAddr m)) := by
  induction m with
  | zero => exact running_started hmem hp hw
  | succ m ih =>
    have ih := ih (Nat.le_of_succ_le hm)
    rw [engineRun_succ, seqBits_succ, scanBits_concat]
    rcases hscan : scanBits op s.k.toNat (8 * s.outCap.toNat) (seqBits s.mem s.inAddr m) with e | c <;> rw [hscan] at ih
    · rw [engineTurn_of_failed ih.1]
      exact ih
    · rw [engineTurn_of_busy (running_busy ih)]
      exact reached_engineStep ih hm

/-! ## How a whole operation ends (40_command.md R108, R111) -/

/-- `t` is the end of a successful operation started in `s`, with output bits `y`: they are reported and stored, the
rest of their last byte is 0, and no other byte of memory has changed. -/
structure Succeeded (s t : State) (y : List Bool) : Prop where
  status : t.status = statusSuccess
  length : t.outLen.toNat = y.length
  bits : seqBits t.mem s.outAddr y.length = y
  padding (j : Nat) : y.length ≤ j → j < 8 * ((y.length + 7) / 8) → seqBit t.mem s.outAddr j = false
  outside (x : Word) : windowHas { base := s.outAddr, len := (y.length + 7) / 8 } x = false →
    memRead t.mem x = memRead s.mem x

/-- `t` is the end of an operation started in `s`, its outcome given. -/
def Ended (s t : State) (outcome : Except ErrorKind (List Bool)) : Prop :=
  match outcome with
  | .error e => t.status = statusFailed e ∧ t.outLen = 0
  | .ok y => Succeeded s t y

theorem succeeded_complete {t : State} {y : List Bool} (h : Written op s t y) : Succeeded s (complete t) y where
  status := rfl
  length := h.length
  bits := h.bits
  padding _ := written_padding h
  outside _ := h.outside

/-- The step after the last input bit is `scanEnd` (R108, R145). -/
theorem ended_engineStep {t : State} {c : Scan} (h : Running op s s.inLen.toNat t c) :
    Ended s (engineStep t) (scanEnd op s.k.toNat c) := by
  have hend : t.eng.i = t.eng.n := by
    apply BitVec.eq_of_toNat_eq
    rw [h.consumed, running_n h]
  by_cases hbad : op = .dec ∧ c.run = s.k.toNat
  · obtain ⟨rfl, hk⟩ := hbad
    have hstep : engineStep t = decStep t := by simp only [engineStep, running_op h]
    rw [scanEnd, if_pos ⟨rfl, hk⟩, hstep, decStep, if_pos hend, if_pos ((run_eq_k_iff h).2 hk)]
    exact ⟨rfl, rfl⟩
  · have hwell : t.eng.op = .dec → t.eng.run ≠ t.eng.k := fun hop hk =>
      hbad ⟨(running_op h).symm.trans hop, (run_eq_k_iff h).1 hk⟩
    rw [scanEnd, if_neg hbad, engineStep_eq_complete hend hwell]
    exact succeeded_complete h.written

/-- An operation ends after IN_LEN + 1 turns of the engine as the scan of its input bits says. -/
theorem ended_engineRun (hmem : memoryWf s.mem = true) (hp : ParamsOk op s) (hw : WindowsOk s) :
    Ended s (engineRun (s.inLen.toNat + 1) (started op s))
      (scanAll op s.k.toNat (8 * s.outCap.toNat) (seqBits s.mem s.inAddr s.inLen.toNat)) := by
  have hreached := reached_engineRun hmem hp hw (Nat.le_refl s.inLen.toNat)
  rw [engineRun_succ, scanAll]
  rcases hscan : scanBits op s.k.toNat (8 * s.outCap.toNat) (seqBits s.mem s.inAddr s.inLen.toNat) with e | c <;>
    rw [hscan] at hreached
  · rw [engineTurn_of_failed hreached.1]
    exact hreached
  · rw [engineTurn_of_busy (running_busy hreached)]
    exact ended_engineStep hreached

end

/-! ## The scan and the transforms (41_encode.md R123, 42_decode.md R147) -/

theorem encGo_stuff {k r : Nat} (h : r + 1 = k) (x : List Bool) :
    encGo k (true :: x) r = true :: false :: encGo k x 0 := if_pos h

theorem encGo_copy {k r : Nat} {b : Bool} (h : ¬ (b = true ∧ r + 1 = k)) (x : List Bool) :
    encGo k (b :: x) r = b :: encGo k x (runAfter b r) := by
  cases b
  · rfl
  · exact if_neg fun hk => h ⟨rfl, hk⟩

theorem foldlM_cons_of_ok {f : Scan → Bool → Except ErrorKind Scan} {b : Bool} {x : List Bool} {c d : Scan}
    (h : f c b = .ok d) : (b :: x).foldlM f c = x.foldlM f d := by
  rw [List.foldlM_cons, h]
  rfl

/-- With room for the encoded bits, ENCODE's scan writes them. -/
theorem foldlM_scanBit_enc {k cap : Nat} (x : List Bool) (c : Scan)
    (hroom : (c.out ++ encGo k x c.run).length ≤ cap) :
    ∃ r, x.foldlM (scanBit .enc k cap) c = .ok { run := r, out := c.out ++ encGo k x c.run } := by
  induction x generalizing c with
  | nil => exact ⟨c.run, by simp only [encGo, List.append_nil]; rfl⟩
  | cons b x ih =>
    by_cases hstuff : b = true ∧ c.run + 1 = k
    · obtain ⟨rfl, hk⟩ := hstuff
      rw [encGo_stuff hk] at hroom ⊢
      rw [foldlM_cons_of_ok (scanBit_enc_stuff hk (by simp at hroom; omega))]
      simpa using ih { run := 0, out := c.out ++ [true, false] } (by simpa using hroom)
    · rw [encGo_copy hstuff] at hroom ⊢
      rw [foldlM_cons_of_ok (scanBit_enc_copy hstuff (by simp at hroom; omega))]
      simpa using ih { run := runAfter b c.run, out := c.out ++ [b] } (by simpa using hroom)

/-- With room for the decoded bits, DECODE's scan writes them and does not end on K counted ones. -/
theorem foldlM_scanBit_dec {k cap : Nat} (y : List Bool) (c : Scan) {x : List Bool}
    (hdec : decGo k y c.run = some x) (hroom : (c.out ++ x).length ≤ cap) :
    ∃ r, r ≠ k ∧ y.foldlM (scanBit .dec k cap) c = .ok { run := r, out := c.out ++ x } := by
  induction y generalizing c x with
  | nil =>
    simp only [decGo, Option.ite_none_left_eq_some, Option.some.injEq] at hdec
    obtain ⟨hk, rfl⟩ := hdec
    exact ⟨c.run, hk, by simp only [List.append_nil]; rfl⟩
  | cons b y ih =>
    by_cases hk : c.run = k
    · cases b with
      | true => simp [decGo, hk] at hdec
      | false =>
        rw [foldlM_cons_of_ok (scanBit_dec_drop hk)]
        rw [decGo, if_pos hk] at hdec
        exact ih { run := 0, out := c.out } hdec hroom
    · rw [decGo, if_neg hk, Option.map_eq_some_iff] at hdec
      obtain ⟨z, hdec, rfl⟩ := hdec
      rw [foldlM_cons_of_ok (scanBit_dec_copy hk (by simp at hroom; omega))]
      simpa using ih { run := runAfter b c.run, out := c.out ++ [b] } hdec (by simpa using hroom)

theorem scanAll_enc {k cap : Nat} {x : List Bool} (hroom : (encBits k x).length ≤ cap) :
    scanAll .enc k cap x = .ok (encBits k x) := by
  obtain ⟨r, hscan⟩ := foldlM_scanBit_enc x { run := 0, out := [] } hroom
  rw [scanAll, scanBits, hscan]
  rfl

theorem scanAll_dec {k cap : Nat} {x y : List Bool} (hdec : decBits k y = some x) (hroom : x.length ≤ cap) :
    scanAll .dec k cap y = .ok x := by
  obtain ⟨r, hr, hscan⟩ := foldlM_scanBit_dec y { run := 0, out := [] } hdec hroom
  rw [scanAll, scanBits, hscan]
  exact if_neg fun h => hr h.2

/-! ## Whole operations (40_command.md R111, R112) -/

theorem exec_encode_started {a : BitVec 30} {s : State} (hidle : busy s = false) (hp : ParamsOk .enc s)
    (hw : WindowsOk s) : exec (.encode a) s = .next (started .enc s) :=
  (exec_start_of_idle hidle).1.trans (start_of_ok hp hw)

theorem exec_decode_started {a : BitVec 30} {s : State} (hidle : busy s = false) (hp : ParamsOk .dec s)
    (hw : WindowsOk s) : exec (.decode a) s = .next (started .dec s) :=
  (exec_start_of_idle hidle).2.trans (start_of_ok hp hw)

/-- Settles O54: the scan of the input bits with room for Enc_K(x) writes it, and the engine follows the scan. -/
theorem encodeRunWritesStuffedSequence : Obligations.EncodeRunWritesStuffedSequence := by
  intro a s hmem hidle hp hw hroom
  have hended := ended_engineRun hmem hp hw
  rw [scanAll_enc hroom] at hended
  obtain ⟨-, -, hbits, hpadding, houtside⟩ := hended
  exact ⟨_, exec_encode_started hidle hp hw, hbits, hpadding, houtside⟩

/-- Settles O56: the same for DECODE, where Dec_K(y) is defined. -/
theorem decodeRunWritesOriginalSequence : Obligations.DecodeRunWritesOriginalSequence := by
  intro a s x hmem hidle hp hw hdec hroom
  have hended := ended_engineRun hmem hp hw
  rw [scanAll_dec hdec hroom] at hended
  obtain ⟨-, hlen, hbits, hpadding, houtside⟩ := hended
  exact ⟨_, exec_decode_started hidle hp hw, hlen, hbits, hpadding, houtside⟩

/-- A command that sets an idle block to work is the start of one operation, in every idle state. -/
theorem exec_eq_start_of_busy {i : Instr} {s t : State} (h : exec i s = .next t) (hidle : busy s = false)
    (hb : busy t = true) : ∃ op, ∀ u : State, busy u = false → exec i u = start op u := by
  cases i with
  | nop a =>
    obtain rfl : s = t := Host.Outcome.next.inj ((exec_nop a s).symm.trans h)
    exact absurd hb (by simp [hidle])
  | reserved a =>
    obtain rfl : completeInvalid s = t := Host.Outcome.next.inj ((exec_reserved_of_idle hidle).symm.trans h)
    exact absurd hb (by simp)
  | encode a => exact ⟨.enc, fun u hu => (exec_start_of_idle hu).1⟩
  | decode a => exact ⟨.dec, fun u hu => (exec_start_of_idle hu).2⟩

/-- The parameter check reads K and IN_LEN alone (R103). -/
theorem paramsOk_congr {op : Op} {s s' : State} (hk : s.k = s'.k) (hlen : s.inLen = s'.inLen) :
    ParamsOk op s ↔ ParamsOk op s' := by
  cases op <;> simp only [ParamsOk, hk, hlen]

/-- Two ends with one outcome have the same result and, on success, the same output bits. -/
theorem ended_same_result {s s' t t' : State} {outcome : Except ErrorKind (List Bool)}
    (hout : s.outAddr = s'.outAddr) (h : Ended s t outcome) (h' : Ended s' t' outcome) :
    t.status = t'.status ∧ t.outLen = t'.outLen ∧
      (t.status = 0x2 → seqBits t.mem s.outAddr t.outLen.toNat = seqBits t'.mem s.outAddr t.outLen.toNat) := by
  cases outcome with
  | error e =>
    obtain ⟨hstatus, hlen⟩ := h
    obtain ⟨hstatus', hlen'⟩ := h'
    refine ⟨hstatus.trans hstatus'.symm, hlen.trans hlen'.symm, fun _ => ?_⟩
    rw [hlen]
    rfl
  | ok y =>
    refine ⟨h.status.trans h'.status.symm, BitVec.eq_of_toNat_eq (h.length.trans h'.length.symm), fun _ => ?_⟩
    rw [h.length, h.bits, hout, h'.bits]

/-- Settles O59: both operations pass their tests, and both ends have the outcome of one scan. -/
theorem outcomeDependsOnOperandsAndInput : Obligations.OutcomeDependsOnOperandsAndInput := by
  intro i s s' s₁ s₁' hmem hmem' hidle hidle' hk hin hlen hout hcap hinput h h' hb
  obtain ⟨op, hstart⟩ := exec_eq_start_of_busy h hidle hb
  rw [hstart s hidle] at h
  rw [hstart s' hidle'] at h'
  rcases start_next_cases h with ⟨-, rfl⟩ | ⟨hp, hw, rfl⟩
  · exact absurd hb (by simp)
  · rcases start_next_cases h' with ⟨hnot, -⟩ | ⟨hp', hw', rfl⟩
    · exact absurd ((paramsOk_congr hk hlen).1 hp) hnot
    · have hended := ended_engineRun hmem hp hw
      have hended' := ended_engineRun hmem' hp' hw'
      rw [hinput] at hended
      rw [← hk, ← hcap, ← hin, ← hlen] at hended'
      exact ended_same_result hout hended hended'

end Sys2Proof.Machine

namespace Sys2Proof.Machine

/-! # Proofs of the family 41_encode.md -/

/-- Settles O14: with K a numeral, each check is linear in IN_LEN. -/
theorem encodeLengthBounds : Obligations.EncodeLengthBounds := by
  intro s
  have hlen := s.inLen.isLt
  refine ⟨fun hk => ?_, fun hk => ?_, fun hk => ?_⟩ <;>
    simp only [ParamsOk, hk, ne_eq, BitVec.reduceEq, not_false_eq_true, true_and, BitVec.reduceToNat] <;>
    omega

/-! ## The length of Enc_K(x) (41_encode.md R126, R127) -/

theorem onesRunsGo_nil_sum {f : Nat → Nat} (hf : f 0 = 0) (l : Nat) : ((onesRunsGo [] l).map f).sum = f l := by
  by_cases hl : l = 0 <;> simp [onesRunsGo, hl, hf]

theorem onesRunsGo_false_sum {f : Nat → Nat} (hf : f 0 = 0) (x : List Bool) (l : Nat) :
    ((onesRunsGo (false :: x) l).map f).sum = f l + ((onesRunsGo x 0).map f).sum := by
  by_cases hl : l = 0 <;> simp [onesRunsGo, hl, hf]

theorem encGo_one {k r : Nat} (h : r + 1 ≠ k) (x : List Bool) :
    encGo k (true :: x) r = true :: encGo k x (r + 1) := if_neg h

/-- After `l` ones of a run the run counter is `l % k`, and the run has got `l / k` stuff bits. -/
theorem encGo_length {k : Nat} (hk : 1 ≤ k) (x : List Bool) (l : Nat) :
    (encGo k x (l % k)).length + l / k = x.length + ((onesRunsGo x l).map (· / k)).sum := by
  have hzero : 0 / k = 0 := Nat.zero_div k
  induction x generalizing l with
  | nil => rw [onesRunsGo_nil_sum hzero, encGo]
  | cons b x ih =>
    have hcount : (l + 1) % k = (l % k + 1) % k := (Nat.mod_add_mod l k 1).symm
    cases b with
    | false =>
      have hnext := ih 0
      rw [Nat.zero_mod, hzero] at hnext
      rw [onesRunsGo_false_sum hzero, encGo, List.length_cons, List.length_cons]
      omega
    | true =>
      have hnext := ih (l + 1)
      by_cases hstuff : l % k + 1 = k
      · rw [hstuff, Nat.mod_self] at hcount
        rw [hcount, Nat.succ_div_of_dvd (Nat.dvd_of_mod_eq_zero hcount)] at hnext
        rw [encGo_stuff hstuff, onesRunsGo, List.length_cons, List.length_cons, List.length_cons]
        omega
      · have hlt : l % k < k := Nat.mod_lt l hk
        replace hcount : (l + 1) % k = l % k + 1 := hcount.trans (Nat.mod_eq_of_lt (by omega))
        rw [Nat.succ_div_of_mod_ne_zero (by omega), hcount] at hnext
        rw [encGo_one hstuff, onesRunsGo, List.length_cons, List.length_cons]
        omega

theorem encBits_length {k : Nat} (hk : 1 ≤ k) (x : List Bool) :
    (encBits k x).length = x.length + ((onesRuns x).map (· / k)).sum := by
  have h := encGo_length hk x 0
  rwa [Nat.zero_mod, Nat.zero_div] at h

theorem onesRunsGo_replicate (n r : Nat) : onesRunsGo (List.replicate n true) r = onesRunsGo [] (r + n) := by
  induction n generalizing r with
  | zero => rfl
  | succ n ih =>
    rw [List.replicate_succ, ← Nat.add_assoc, Nat.add_right_comm]
    exact ih (r + 1)

theorem encBits_ones_length {k : Nat} (hk : 1 ≤ k) (n : Nat) :
    (encBits k (List.replicate n true)).length = n + n / k := by
  rw [encBits_length hk, onesRuns, onesRunsGo_replicate, onesRunsGo_nil_sum (Nat.zero_div k), Nat.zero_add,
    List.length_replicate]

/-- A `0` of the input separates: what follows it is encoded from run counter 0. -/
theorem encGo_append_false (k : Nat) (x y : List Bool) (r : Nat) :
    encGo k (x ++ false :: y) r = encGo k x r ++ false :: encBits k y := by
  induction x generalizing r with
  | nil => rfl
  | cons b x ih =>
    by_cases hstuff : b = true ∧ r + 1 = k
    · obtain ⟨rfl, hk⟩ := hstuff
      rw [List.cons_append, encGo_stuff hk, encGo_stuff hk, ih, List.cons_append, List.cons_append]
    · rw [List.cons_append, encGo_copy hstuff, encGo_copy hstuff, ih, List.cons_append]

/-- Where a `0` or an end of the sequence stands on the left of the cut, the two parts are encoded apart. -/
theorem encBits_append_of_left {k : Nat} {x : List Bool} (h : x = [] ∨ ∃ u, x = u ++ [false]) (y : List Bool) :
    encBits k (x ++ y) = encBits k x ++ encBits k y := by
  rcases h with rfl | ⟨u, rfl⟩
  · rfl
  · have hx : encBits k (u ++ [false]) = encBits k u ++ [false] := encGo_append_false k u [] 0
    have hxy : encBits k (u ++ false :: y) = encBits k u ++ false :: encBits k y := encGo_append_false k u y 0
    rw [hx, List.append_assoc, List.append_assoc, List.singleton_append, List.singleton_append, hxy]

/-- The same with the `0` or the end on the right of the cut. -/
theorem encBits_append_of_right {k : Nat} {y : List Bool} (h : y = [] ∨ ∃ u, y = false :: u) (x : List Bool) :
    encBits k (x ++ y) = encBits k x ++ encBits k y := by
  rcases h with rfl | ⟨u, rfl⟩
  · simp [encBits, encGo]
  · exact encGo_append_false k x u 0

/-- Settles O49: the length by `encBits_length`; a bounded run is cut out at both of its ends. -/
theorem stuffedLengthLaw : Obligations.StuffedLengthLaw := by
  intro k x hk
  refine ⟨encBits_length hk x, ?_⟩
  rintro l before after rfl hbefore hafter
  refine ⟨?_, encBits_ones_length hk l⟩
  rw [encBits_append_of_right hafter, encBits_append_of_left hbefore]

theorem onesRunsGo_sum_le (x : List Bool) (r : Nat) : (onesRunsGo x r).sum ≤ x.length + r := by
  induction x generalizing r with
  | nil => by_cases hr : r = 0 <;> simp [onesRunsGo, hr]
  | cons b x ih =>
    cases b with
    | true =>
      have hnext := ih (r + 1)
      rw [onesRunsGo, List.length_cons]
      omega
    | false =>
      have hnext := ih 0
      by_cases hr : r = 0 <;> simp [onesRunsGo, hr] <;> omega

theorem sum_map_div_le (k : Nat) (ls : List Nat) : (ls.map (· / k)).sum ≤ ls.sum / k := by
  induction ls with
  | nil => exact Nat.zero_le _
  | cons l ls ih =>
    rw [List.map_cons, List.sum_cons, List.sum_cons]
    exact (Nat.add_le_add_left ih _).trans Nat.div_add_div_le_add_div

theorem encBits_length_le {k : Nat} (hk : 1 ≤ k) (x : List Bool) :
    (encBits k x).length ≤ x.length + x.length / k := by
  rw [encBits_length hk]
  exact Nat.add_le_add_left
    ((sum_map_div_le k _).trans (Nat.div_le_div_right (onesRunsGo_sum_le x 0))) _

/-- Settles O50: the ones of `x` are at most all its bits, and cutting them into runs only loses stuff bits. -/
theorem allOnesIsWorstCase : Obligations.AllOnesIsWorstCase := by
  intro k n hk
  refine ⟨encBits_ones_length hk n, ?_⟩
  rintro x rfl
  exact encBits_length_le hk x

/-! ## Runs of ones in stuffed sequences (41_encode.md R128) -/

theorem wellFormedGo_true {k r : Nat} (y : List Bool) (h : r ≠ k) :
    wellFormedGo k (true :: y) r = wellFormedGo k y (r + 1) := if_neg h

/-- A `0` is well formed in either position, and the counter is 0 after it. -/
theorem wellFormedGo_false (k : Nat) (y : List Bool) (r : Nat) :
    wellFormedGo k (false :: y) r = wellFormedGo k y 0 := ite_self _

theorem wellFormedGo_encGo {k : Nat} (x : List Bool) {r : Nat} (hr : r < k) :
    wellFormedGo k (encGo k x r) r = true := by
  induction x generalizing r with
  | nil => simpa [encGo, wellFormedGo] using hr.ne
  | cons b x ih =>
    have hpos : 0 < k := Nat.zero_lt_of_lt hr
    cases b with
    | false => exact (wellFormedGo_false k _ r).trans (ih hpos)
    | true =>
      by_cases hstuff : r + 1 = k
      · rw [encGo_stuff hstuff, wellFormedGo_true _ hr.ne, wellFormedGo_false, ih hpos]
      · rw [encGo_one hstuff, wellFormedGo_true _ hr.ne]
        exact ih (by omega)

/-- In well-formed input a run of ones cannot outgrow K: the bit after K ones is a `0` (R146). -/
theorem onesRunsGo_le_of_wellFormed {k : Nat} (y : List Bool) {r : Nat} (hr : r ≤ k)
    (h : wellFormedGo k y r = true) : ∀ l ∈ onesRunsGo y r, l ≤ k := by
  induction y generalizing r with
  | nil => by_cases hr0 : r = 0 <;> simp [onesRunsGo, hr0, hr]
  | cons b y ih =>
    cases b with
    | false =>
      rw [wellFormedGo_false] at h
      have hnext := ih (Nat.zero_le k) h
      by_cases hr0 : r = 0
      · simpa [onesRunsGo, hr0] using hnext
      · simpa [onesRunsGo, hr0, hr] using hnext
    | true =>
      have hne : r ≠ k := by
        rintro rfl
        simp [wellFormedGo] at h
      rw [wellFormedGo_true y hne] at h
      exact ih (by omega) h

theorem wellFormedGo_ones {k : Nat} (n : Nat) {r : Nat} (hr : r ≤ k) (hn : k ≤ r + n) :
    wellFormedGo k (List.replicate n true) r = false := by
  induction n generalizing r with
  | zero => simpa [wellFormedGo] using Nat.le_antisymm hr hn
  | succ n ih =>
    by_cases hk : r = k
    · simp [List.replicate_succ, wellFormedGo, hk]
    · rw [List.replicate_succ, wellFormedGo_true _ hk]
      exact ih (by omega) (by omega)

/-- Input that ends in K ones is not well formed: the scan ends on K counted ones or meets a `1` after them (R145). -/
theorem wellFormedGo_append_ones {k : Nat} (z : List Bool) {r : Nat} (hr : r ≤ k) :
    wellFormedGo k (z ++ List.replicate k true) r = false := by
  induction z generalizing r with
  | nil => exact wellFormedGo_ones k hr (Nat.le_add_left k r)
  | cons b z ih =>
    cases b with
    | false => exact (wellFormedGo_false k _ r).trans (ih (Nat.zero_le k))
    | true =>
      by_cases hk : r = k
      · exact if_pos hk
      · exact (wellFormedGo_true _ hk).trans (ih (by omega))

/-- Settles O51: Enc_K(x) is well formed, and well-formed input has neither a longer run nor K ones at its end. -/
theorem stuffedRunsAreBounded : Obligations.StuffedRunsAreBounded := by
  intro k x hk
  have hwell : wellFormedStuffed k (encBits k x) = true := wellFormedGo_encGo x hk
  refine ⟨onesRunsGo_le_of_wellFormed _ (Nat.zero_le k) hwell, ?_, hwell⟩
  rintro ⟨z, hz⟩
  rw [hz, wellFormedStuffed, wellFormedGo_append_ones z (Nat.zero_le k)] at hwell
  exact Bool.false_ne_true hwell

/-! ## The ENCODE step (41_encode.md R122, R124) -/

/-- Inside an engine step from `s`, `d` is reached by writing output bits from position eng.o on, the first of them
`b`. -/
structure Copied (s d : State) (b : Bool) : Prop where
  mid : MidStep s d
  bit : seqBit d.mem s.eng.outAddr s.eng.o.toNat = b
  kept {j : Nat} : j < s.eng.o.toNat → seqBit d.mem s.eng.outAddr j = seqBit s.mem s.eng.outAddr j

/-- What PutBit does to the output sequence inside an engine step (R109). -/
theorem putBit_outputBits {s c d : State} {b : Bool} (h : MidStep s c) (ho : c.eng.o.toNat + 1 < 2 ^ 32)
    (hput : putBit b c = some d) :
    seqBit d.mem s.eng.outAddr c.eng.o.toNat = b ∧
      ∀ j < c.eng.o.toNat, seqBit d.mem s.eng.outAddr j = seqBit c.mem s.eng.outAddr j := by
  obtain ⟨hroom, -⟩ := putBit_eq_some hput
  obtain ⟨d', hput', -, -, -, -, hbit, hkept, -⟩ := putBit_spec (b := b) h.memWf h.current hroom ho
  obtain rfl : d = d' := Option.some.inj (hput.symm.trans hput')
  obtain ⟨⟨_, _, _, _, rfl⟩, -, -, -⟩ := h
  exact ⟨hbit, hkept⟩

theorem copied_putBit {s c : State} {b : Bool} (hself : MidStep s s) (ho : s.eng.o.toNat + 1 < 2 ^ 32)
    (hput : putBit b s = some c) : Copied s c b := by
  obtain ⟨hbit, hkept⟩ := putBit_outputBits hself ho hput
  exact ⟨midStep_putBit hself ho hput, hbit, hkept _⟩

/-- A second PutBit in the same step leaves the first one's bit and the earlier ones. -/
theorem copied_putBit_next {s c d : State} {b b' : Bool} (h : Copied s c b) (hnext : s.eng.o.toNat < c.eng.o.toNat)
    (ho : c.eng.o.toNat + 1 < 2 ^ 32) (hput : putBit b' c = some d) : Copied s d b := by
  obtain ⟨-, hkept⟩ := putBit_outputBits h.mid ho hput
  exact ⟨midStep_putBit h.mid ho hput, (hkept _ hnext).trans h.bit,
    fun hj => (hkept _ (hj.trans hnext)).trans (h.kept hj)⟩

theorem copied_setRun {s c : State} {b : Bool} {r : Word} (h : Copied s c b) : Copied s (setRun r c) b :=
  ⟨midStep_setRun h.mid, h.bit, h.kept⟩

/-- A step that goes on from `d` with run counter `r`: one input bit consumed, its bit copied, nothing else of the block
touched. -/
theorem nextInputBit_of_copied {s d t : State} {b : Bool} {r : Word} (h : Copied s d b)
    (hin : s.eng.i.toNat < s.eng.n.toNat) (ht : t = nextInputBit (setRun r d)) :
    t.eng.i.toNat = s.eng.i.toNat + 1 ∧ seqBit t.mem s.eng.outAddr s.eng.o.toNat = b ∧
      (∀ j < s.eng.o.toNat, seqBit t.mem s.eng.outAddr j = seqBit s.mem s.eng.outAddr j) ∧
      t = { s with
        mem := t.mem
        eng := { s.eng with i := t.eng.i, o := t.eng.o, run := t.eng.run, acc := t.eng.acc } } := by
  obtain ⟨⟨⟨_, _, _, _, rfl⟩, -, -, -⟩, hbit, hkept⟩ := h
  subst ht
  exact ⟨increment_toNat_of_lt hin, hbit, fun _ => hkept, rfl⟩

theorem midStep_capBits {s c : State} (h : MidStep s c) : c.eng.capBits = s.eng.capBits := by
  obtain ⟨⟨_, _, _, _, rfl⟩, -, -, -⟩ := h
  rfl

/-- The next input bit is the K-th one in a row (R124). -/
def Stuffs (s : State) : Prop := getBit s = true ∧ s.eng.run.toNat + 1 = s.eng.k.toNat

/-- What an ENCODE step with room for its data bit can do: copy it; end at a stuff bit without room; or copy a one and
stuff. -/
theorem encStep_of_room {s : State} (hinv : MachineInv s) (hb : busy s = true) (hop : s.eng.op = .enc)
    (hmore : s.eng.i ≠ s.eng.n) (hroom : s.eng.o.toNat < s.eng.capBits.toNat) :
    (¬ Stuffs s ∧ ∃ c r, Copied s c (getBit s) ∧ c.eng.o.toNat = s.eng.o.toNat + 1 ∧
      r.toNat = runAfter (getBit s) s.eng.run.toNat ∧ encStep s = nextInputBit (setRun r c)) ∨
    (Stuffs s ∧ s.eng.capBits.toNat ≤ s.eng.o.toNat + 1 ∧ ∃ c, encStep s = raiseError .capacityExceeded c) ∨
    (Stuffs s ∧ s.eng.o.toNat + 1 < s.eng.capBits.toNat ∧ ∃ d, Copied s d true ∧
      d.eng.o.toNat = s.eng.o.toNat + 2 ∧ seqBit d.mem s.eng.outAddr (s.eng.o.toNat + 1) = false ∧
      encStep s = nextInputBit (setRun 0 d)) := by
  have hself := midStep_refl hinv hb
  obtain ⟨-, -, -, -, heng⟩ := hinv
  obtain ⟨-, hi, -, -, henc, -⟩ := heng hb
  have hcursors := henc hop
  have ⟨hrun, _⟩ := hcursors
  have hlen := encodeCursors_room hcursors (toNat_lt_of_le_of_ne hi hmore)
  have hcount : (increment s.eng.run).toNat = s.eng.run.toNat + 1 := increment_toNat_of_lt hrun
  have hkth : increment s.eng.run = s.eng.k ↔ s.eng.run.toNat + 1 = s.eng.k.toNat := by
    rw [← hcount, BitVec.toNat_inj]
  rcases encStep_cases s with ⟨hend, -⟩ | ⟨-, hnone, -⟩ | ⟨c, -, hput, hcases⟩
  case inl => exact absurd hend hmore
  case inr.inl => exact absurd (putBit_eq_none_iff.1 hnone) (Nat.not_le.2 hroom)
  case inr.inr =>
    have hcopied : Copied s c (getBit s) := copied_putBit hself (by omega) hput
    have hcounted : Copied s (setRun (increment s.eng.run) c) (getBit s) := copied_setRun hcopied
    obtain ⟨hoc, hrunc, hkc⟩ := putBit_cursors hput (by omega)
    rw [hrunc, hkc, hkth] at hcases
    rcases hcases with ⟨hzero, hnext⟩ | ⟨hone, hbelow, hnext⟩ | ⟨hone, hk, hnone, hraise⟩ |
        ⟨hone, hk, d, hstuff, hnext⟩
    case inl => exact .inl ⟨by simp [Stuffs, hzero], c, 0, hcopied, hoc, by rw [hzero]; rfl, hnext⟩
    case inr.inl =>
      have hnot : ¬ Stuffs s := fun hstuffs => hbelow (hkth.2 hstuffs.2)
      exact .inl ⟨hnot, c, _, hcopied, hoc, by rw [hone]; exact hcount, hnext⟩
    case inr.inr.inl =>
      have hfull := putBit_eq_none_iff.1 hnone
      rw [midStep_capBits hcounted.mid] at hfull
      exact .inr (.inl ⟨⟨hone, hk⟩, hfull.trans hoc.le, _, hraise⟩)
    case inr.inr.inr =>
      have hfits := (putBit_eq_some hstuff).1
      have hnextBit : c.eng.o.toNat + 1 < 2 ^ 32 := by omega
      have hod : d.eng.o.toNat = c.eng.o.toNat + 1 := (putBit_cursors hstuff hnextBit).1
      have hbit : seqBit d.mem s.eng.outAddr c.eng.o.toNat = false :=
        (putBit_outputBits hcounted.mid hnextBit hstuff).1
      have hstuffed := copied_putBit_next hcounted (hoc ▸ Nat.lt_succ_self _) hnextBit hstuff
      rw [midStep_capBits hcounted.mid] at hfits
      rw [hone] at hstuffed
      rw [hoc] at hod hbit
      exact .inr (.inr ⟨⟨hone, hk⟩, hoc.ge.trans_lt hfits, d, hstuffed, hod, hbit, hnext⟩)

/-- Settles O20: of the three ways the step can go, a copy has no stuff bit to write and only the last one has room for
it. -/
theorem encodeStepCopiesAndStuffs : Obligations.EncodeStepCopiesAndStuffs := by
  intro s hinv hb hop hmore hroom b stuffs t
  have hin : s.eng.i.toNat < s.eng.n.toNat := by
    obtain ⟨-, -, -, -, heng⟩ := hinv
    obtain ⟨-, hi, -⟩ := heng hb
    exact toNat_lt_of_le_of_ne hi hmore
  have hstep : t = encStep s := by simp only [t, engineStep, hop]
  rcases encStep_of_room hinv hb hop hmore hroom with ⟨hnot, c, r, hcopied, hoc, hr, hnext⟩ |
      ⟨hstuffs, hfull, c, hraise⟩ | ⟨hstuffs, hfits, d, hcopied, hod, hbit, hnext⟩
  case inl =>
    have ht := hstep.trans hnext
    obtain ⟨hi, hcopy, hkept, hframe⟩ := nextInputBit_of_copied hcopied hin ht
    have ho : t.eng.o.toNat = s.eng.o.toNat + 1 := by rw [ht]; exact hoc
    have hrun : t.eng.run.toNat = runAfter b s.eng.run.toNat := by rw [ht]; exact hr
    refine ⟨fun h => absurd h hnot, fun _ => ⟨hi, hcopy, hkept, fun hzero => ⟨?_, ho⟩, fun hone _ => ⟨?_, ho⟩,
      fun h => absurd h hnot, hframe⟩⟩
    · exact BitVec.eq_of_toNat_eq (by rw [hrun, hzero]; rfl)
    · rw [hrun, hone]
      rfl
  case inr.inl =>
    refine ⟨fun _ _ => ?_, fun hroom => absurd (hroom hstuffs) (by omega)⟩
    rw [hstep, hraise]
    exact ⟨rfl, rfl⟩
  case inr.inr =>
    have ht := hstep.trans hnext
    obtain ⟨hone, hk⟩ := hstuffs
    obtain ⟨hi, hcopy, hkept, hframe⟩ := nextInputBit_of_copied hcopied hin ht
    refine ⟨fun _ hfull => absurd hfull hfits.ne, fun _ => ⟨hi, hcopy.trans hone.symm, hkept,
      fun hzero => absurd (hone.symm.trans hzero) (by simp), fun _ hbelow => absurd hk hbelow, fun _ => ?_, hframe⟩⟩
    rw [ht]
    exact ⟨rfl, hod, hbit⟩

/-! ## The scan where the capacity is short or ample (41_encode.md R127, R129; 42_decode.md R140) -/

theorem foldlM_cons_of_error {f : Scan → Bool → Except ErrorKind Scan} {b : Bool} {x : List Bool} {c : Scan}
    {e : ErrorKind} (h : f c b = .error e) : (b :: x).foldlM f c = .error e := by
  rw [List.foldlM_cons, h]
  rfl

/-- Without room for all the encoded bits, ENCODE's scan ends at the first one that has none. -/
theorem foldlM_scanBit_enc_full {k cap : Nat} (x : List Bool) (c : Scan) (hfits : c.out.length ≤ cap)
    (hfull : cap < (c.out ++ encGo k x c.run).length) :
    x.foldlM (scanBit .enc k cap) c = .error .capacityExceeded := by
  induction x generalizing c with
  | nil =>
    rw [encGo, List.append_nil] at hfull
    omega
  | cons b x ih =>
    by_cases hstuff : b = true ∧ c.run + 1 = k
    · obtain ⟨rfl, hk⟩ := hstuff
      by_cases hroom : c.out.length + 1 < cap
      · rw [foldlM_cons_of_ok (scanBit_enc_stuff hk hroom)]
        refine ih _ (List.length_append.trans_le hroom) ?_
        rw [encGo_stuff hk] at hfull
        simpa using hfull
      · exact foldlM_cons_of_error (scanBit_enc_stuff_full hk (by omega))
    · by_cases hroom : c.out.length < cap
      · rw [foldlM_cons_of_ok (scanBit_enc_copy hstuff hroom)]
        refine ih _ (by simpa using hroom) ?_
        rw [encGo_copy hstuff] at hfull
        simpa using hfull
      · exact foldlM_cons_of_error (scanBit_enc_full (by omega))

theorem scanAll_enc_full {k cap : Nat} {x : List Bool} (hfull : cap < (encBits k x).length) :
    scanAll .enc k cap x = .error .capacityExceeded := by
  have hscan : scanBits .enc k cap x = .error .capacityExceeded :=
    foldlM_scanBit_enc_full x _ (Nat.zero_le cap) hfull
  rw [scanAll, hscan]
  rfl

/-- DECODE writes at most one bit per input bit, so with room for the input its scan never runs out of room. -/
theorem foldlM_scanBit_dec_ne_full {k cap : Nat} (y : List Bool) (c : Scan) (hroom : c.out.length + y.length ≤ cap) :
    y.foldlM (scanBit .dec k cap) c ≠ .error .capacityExceeded := by
  induction y generalizing c with
  | nil => exact nofun
  | cons b y ih =>
    rw [List.length_cons] at hroom
    by_cases hk : c.run = k
    · cases b with
      | true =>
        rw [foldlM_cons_of_error (scanBit_dec_malformed hk)]
        exact nofun
      | false =>
        rw [foldlM_cons_of_ok (scanBit_dec_drop hk)]
        exact ih _ (by simp only; omega)
    · rw [foldlM_cons_of_ok (scanBit_dec_copy hk (by omega))]
      exact ih _ (by simp only [List.length_append, List.length_singleton]; omega)

theorem scanAll_dec_ne_full {k cap : Nat} {y : List Bool} (hroom : y.length ≤ cap) :
    scanAll .dec k cap y ≠ .error .capacityExceeded := by
  have hscan := foldlM_scanBit_dec_ne_full (k := k) y { run := 0, out := [] } ((Nat.zero_add _).trans_le hroom)
  rw [scanAll, scanBits]
  rcases hend : y.foldlM (scanBit .dec k cap) { run := 0, out := [] } with e | c
  · rintro ⟨⟩
    exact hscan hend
  · simp only [Except.bind, scanEnd]
    split <;> simp

/-! ## How a whole operation ends (41_encode.md R127, R129) -/

theorem seqBits_length (m : Memory) (a : Word) (n : Nat) : (seqBits m a n).length = n := by simp [seqBits]

/-- An error of the scan is final: more input bits leave it as it is. -/
theorem scanBits_seqBits_error {op : Op} {k cap m n : Nat} {mem : Memory} {a : Word} {e : ErrorKind} (hmn : m ≤ n)
    (h : scanBits op k cap (seqBits mem a m) = .error e) : scanBits op k cap (seqBits mem a n) = .error e := by
  induction n, hmn using Nat.le_induction with
  | base => exact h
  | succ n _ ih =>
    rw [seqBits_succ, scanBits_concat, ih]
    rfl

/-- An operation that ends in success is busy up to its last step. -/
theorem busy_engineRun_of_ok {op : Op} {s : State} {y : List Bool} {m : Nat} (hmem : memoryWf s.mem = true)
    (hp : ParamsOk op s) (hw : WindowsOk s)
    (hok : scanAll op s.k.toNat (8 * s.outCap.toNat) (seqBits s.mem s.inAddr s.inLen.toNat) = .ok y)
    (hm : m ≤ s.inLen.toNat) : busy (engineRun m (started op s)) = true := by
  have hreached := reached_engineRun hmem hp hw hm
  rcases hscan : scanBits op s.k.toNat (8 * s.outCap.toNat) (seqBits s.mem s.inAddr m) with e | c
  · rw [scanAll, scanBits_seqBits_error hm hscan] at hok
    cases hok
  · rw [hscan] at hreached
    exact running_busy hreached

/-- Settles O53: the engine follows the scan, which ends as Enc_K(x) has room or not. -/
theorem encodeRunEndsAsCapacityAllows : Obligations.EncodeRunEndsAsCapacityAllows := by
  intro a s hmem hidle hp hw
  refine ⟨_, exec_encode_started hidle hp hw, ?_⟩
  have hended := ended_engineRun hmem hp hw
  refine ⟨fun hfull => ?_, fun hroom => ?_⟩
  · rw [scanAll_enc_full hfull] at hended
    exact hended
  · have hok := scanAll_enc hroom
    rw [hok] at hended
    exact ⟨hended.status, hended.length, fun m hm => busy_engineRun_of_ok hmem hp hw hok hm⟩

/-- An end reports CAPACITY_EXCEEDED only if the scan did. -/
theorem ended_status_ne_full {s t : State} {outcome : Except ErrorKind (List Bool)} (h : Ended s t outcome)
    (hne : outcome ≠ .error .capacityExceeded) : t.status ≠ statusFailed .capacityExceeded := by
  cases outcome with
  | ok y =>
    rw [h.status]
    decide
  | error e =>
    rw [h.1]
    cases e
    · exact absurd rfl hne
    · decide
    · decide

/-- Settles O58: ENCODE's capacity covers the worst case of R127, DECODE's its whole input. -/
theorem ampleCapacityNeverExceeded : Obligations.AmpleCapacityNeverExceeded := by
  intro a s hmem hidle hw
  refine ⟨fun hp hcap => ⟨_, exec_encode_started hidle hp hw, ?_⟩,
    fun hp hcap => ⟨_, exec_decode_started hidle hp hw, ?_⟩⟩
  · have hk : 1 ≤ s.k.toNat := Nat.pos_of_ne_zero fun h => hp.1 (BitVec.eq_of_toNat_eq h)
    have hlen := encBits_length_le hk (seqBits s.mem s.inAddr s.inLen.toNat)
    rw [seqBits_length] at hlen
    have hended := ended_engineRun hmem hp hw
    rw [scanAll_enc (by omega)] at hended
    exact hended.status
  · refine ended_status_ne_full (ended_engineRun hmem hp hw) (scanAll_dec_ne_full ?_)
    rw [seqBits_length]
    omega

end Sys2Proof.Machine

namespace Sys2Proof.Machine

/-! # Proofs of the family 42_decode.md -/

/-! ## Dec_K (42_decode.md R146, R147, R151) -/

/-- Outside the stuff position Dec_K copies and counts the bit. -/
theorem decGo_copy {k r : Nat} {b : Bool} (h : r ≠ k) (y : List Bool) :
    decGo k (b :: y) r = (decGo k y (runAfter b r)).map (b :: ·) := if_neg h

theorem decGo_drop {k r : Nat} (h : r = k) (y : List Bool) : decGo k (false :: y) r = decGo k y 0 := if_pos h

theorem decGo_malformed {k r : Nat} (h : r = k) (y : List Bool) : decGo k (true :: y) r = none := if_pos h

theorem wellFormedGo_copy {k r : Nat} {b : Bool} (h : r ≠ k) (y : List Bool) :
    wellFormedGo k (b :: y) r = wellFormedGo k y (runAfter b r) := if_neg h

theorem wellFormedGo_malformed {k r : Nat} (h : r = k) (y : List Bool) :
    wellFormedGo k (true :: y) r = false := if_pos h

theorem dataBitsGo_copy {k r : Nat} {b : Bool} (h : r ≠ k) (y : List Bool) :
    dataBitsGo k (b :: y) r = dataBitsGo k y (runAfter b r) + 1 := if_neg h

theorem dataBitsGo_drop {k r : Nat} (h : r = k) (y : List Bool) :
    dataBitsGo k (false :: y) r = dataBitsGo k y 0 := if_pos h

theorem dataBitsGo_malformed {k r : Nat} (h : r = k) (y : List Bool) : dataBitsGo k (true :: y) r = 0 := if_pos h

theorem isSome_decGo (k : Nat) (y : List Bool) (r : Nat) : (decGo k y r).isSome = wellFormedGo k y r := by
  induction y generalizing r with
  | nil => by_cases hk : r = k <;> simp [decGo, wellFormedGo, hk]
  | cons b y ih =>
    by_cases hk : r = k
    · cases b with
      | true => rw [decGo_malformed hk, wellFormedGo_malformed hk, Option.isSome_none]
      | false => rw [decGo_drop hk, wellFormedGo_false, ih]
    · rw [decGo_copy hk, wellFormedGo_copy hk, Option.isSome_map, ih]

theorem length_eq_dataBitsGo_of_decGo {k r : Nat} {x y : List Bool} (h : decGo k y r = some x) :
    x.length = dataBitsGo k y r := by
  induction y generalizing r x with
  | nil =>
    simp only [decGo, Option.ite_none_left_eq_some, Option.some.injEq] at h
    rw [← h.2]
    rfl
  | cons b y ih =>
    by_cases hk : r = k
    · cases b with
      | true => simp [decGo_malformed hk] at h
      | false =>
        rw [dataBitsGo_drop hk]
        exact ih (decGo_drop hk y ▸ h)
    · rw [decGo_copy hk, Option.map_eq_some_iff] at h
      obtain ⟨z, h, rfl⟩ := h
      rw [dataBitsGo_copy hk, List.length_cons, ih h]

theorem dataBitsGo_le (k : Nat) (y : List Bool) (r : Nat) : dataBitsGo k y r ≤ y.length := by
  induction y generalizing r with
  | nil => exact Nat.le_refl 0
  | cons b y ih =>
    by_cases hk : r = k
    · cases b with
      | true => exact (dataBitsGo_malformed hk y).trans_le (Nat.zero_le _)
      | false => exact (dataBitsGo_drop hk y).trans_le ((ih 0).trans (Nat.le_succ _))
    · exact (dataBitsGo_copy hk y).trans_le (Nat.succ_le_succ (ih _))

theorem isSome_decBits (k : Nat) (y : List Bool) : (decBits k y).isSome = wellFormedStuffed k y :=
  isSome_decGo k y 0

/-- Settles O48: Dec_K, WF_K and P are one scan, read for its result, its success and its length. -/
theorem decodesExactlyWellFormed : Obligations.DecodesExactlyWellFormed :=
  fun k y => ⟨isSome_decBits k y, fun _ => length_eq_dataBitsGo_of_decGo, dataBitsGo_le k y 0⟩

/-! ## Dec_K and Enc_K are inverse (42_decode.md R148, R150) -/

theorem decGo_encGo {k : Nat} (x : List Bool) {r : Nat} (hr : r < k) : decGo k (encGo k x r) r = some x := by
  induction x generalizing r with
  | nil => exact if_neg hr.ne
  | cons b x ih =>
    have hpos : 0 < k := Nat.zero_lt_of_lt hr
    by_cases hstuff : b = true ∧ r + 1 = k
    · obtain ⟨rfl, hk⟩ := hstuff
      have hfull : runAfter true r = k := hk
      rw [encGo_stuff hk, decGo_copy hr.ne, decGo_drop hfull, ih hpos, Option.map_some]
    · have hnext : runAfter b r < k := by
        cases b with
        | false => exact hpos
        | true => exact Nat.lt_of_le_of_ne hr fun hk => hstuff ⟨rfl, hk⟩
      rw [encGo_copy hstuff, decGo_copy hr.ne, ih hnext, Option.map_some]

/-- Settles O46: the decoder's run counter is the encoder's, and it drops each stuff bit where the encoder put it. -/
theorem unstuffingInvertsStuffing : Obligations.UnstuffingInvertsStuffing := fun _ x hk => decGo_encGo x hk

/-- What Dec_K accepts from run counter `r` on is the encoding of its result, after a stuff bit if K ones have been
counted. -/
theorem eq_encGo_of_decGo {k r : Nat} {x y : List Bool} (hk : 1 ≤ k) (h : decGo k y r = some x) :
    y = if r = k then false :: encGo k x 0 else encGo k x r := by
  induction y generalizing r x with
  | nil =>
    simp only [decGo, Option.ite_none_left_eq_some, Option.some.injEq] at h
    obtain ⟨hne, rfl⟩ := h
    exact (if_neg hne).symm
  | cons b y ih =>
    by_cases hrk : r = k
    · cases b with
      | true => simp [decGo_malformed hrk] at h
      | false =>
        have hrest := ih (decGo_drop hrk y ▸ h)
        rw [if_neg (Nat.ne_of_lt hk)] at hrest
        rw [if_pos hrk, hrest]
    · rw [decGo_copy hrk, Option.map_eq_some_iff] at h
      obtain ⟨z, h, rfl⟩ := h
      rw [if_neg hrk, ih h]
      by_cases hstuff : b = true ∧ r + 1 = k
      · obtain ⟨rfl, hfull⟩ := hstuff
        rw [encGo_stuff hfull]
        exact congrArg _ (if_pos hfull)
      · have hbelow : runAfter b r ≠ k := by
          cases b with
          | false => exact Nat.ne_of_lt hk
          | true => exact fun hfull => hstuff ⟨rfl, hfull⟩
        rw [encGo_copy hstuff, if_neg hbelow]

theorem encBits_of_decBits {k : Nat} {x y : List Bool} (hk : 1 ≤ k) (h : decBits k y = some x) : encBits k x = y := by
  have hy := eq_encGo_of_decGo hk h
  rw [if_neg (Nat.ne_of_lt hk)] at hy
  exact hy.symm

/-- Settles O47: well-formed input is what Dec_K is defined on, and there Enc_K takes its result back. -/
theorem wellFormedIsExactlyStuffed : Obligations.WellFormedIsExactlyStuffed := by
  intro k y hk
  have hdecoded : wellFormedStuffed k y = true → ∃ x, decBits k y = some x ∧ encBits k x = y := by
    intro hwell
    rw [← isSome_decBits] at hwell
    obtain ⟨x, hx⟩ := Option.isSome_iff_exists.1 hwell
    exact ⟨x, hx, encBits_of_decBits hk hx⟩
  refine ⟨⟨fun hwell => ?_, ?_⟩, hdecoded, ?_⟩
  · obtain ⟨x, -, hx⟩ := hdecoded hwell
    exact ⟨x, hx.symm⟩
  · rintro ⟨x, rfl⟩
    exact wellFormedGo_encGo x hk
  · rintro x rfl
    exact unstuffingInvertsStuffing k x hk

/-! ## Input without K ones in a row (42_decode.md R149) -/

/-- The run that `r` ones have begun is itself one of the runs, and no shorter than `r`. -/
theorem run_lt_of_onesRunsGo_lt {k : Nat} (hk : 1 ≤ k) (y : List Bool) {r : Nat} (h : ∀ l ∈ onesRunsGo y r, l < k) :
    r < k := by
  by_cases hr : r = 0
  · exact hr.trans_lt hk
  · induction y generalizing r with
    | nil => exact h r (by simp [onesRunsGo, hr])
    | cons b y ih =>
      cases b with
      | false => exact h r (by simp [onesRunsGo, hr])
      | true => exact (Nat.lt_succ_self r).trans (ih h (Nat.succ_ne_zero r))

/-- The runs after a bit are among the runs before it. -/
theorem mem_onesRunsGo_cons {b : Bool} {y : List Bool} {r l : Nat} (h : l ∈ onesRunsGo y (runAfter b r)) :
    l ∈ onesRunsGo (b :: y) r := by
  cases b with
  | true => exact h
  | false =>
    have h : l ∈ onesRunsGo y 0 := h
    by_cases hr : r = 0 <;> simp [onesRunsGo, hr, h]

theorem decGo_of_onesRunsGo_lt {k : Nat} (hk : 1 ≤ k) (y : List Bool) {r : Nat} (h : ∀ l ∈ onesRunsGo y r, l < k) :
    decGo k y r = some y := by
  have hne : r ≠ k := (run_lt_of_onesRunsGo_lt hk y h).ne
  induction y generalizing r with
  | nil => exact if_neg hne
  | cons b y ih =>
    have hnext : ∀ l ∈ onesRunsGo y (runAfter b r), l < k := fun l hl => h l (mem_onesRunsGo_cons hl)
    rw [decGo_copy hne, ih hnext (run_lt_of_onesRunsGo_lt hk y hnext).ne, Option.map_some]

/-- Settles O52: where every run stays below K, so does the run counter, and each bit is copied. -/
theorem unstuffedInputIsUnchanged : Obligations.UnstuffedInputIsUnchanged :=
  fun _ y hk h => ⟨decGo_of_onesRunsGo_lt hk y h, decGo_of_onesRunsGo_lt hk [] nofun⟩

/-! ## The DECODE step (42_decode.md R142 to R145) -/

theorem engineStep_of_dec {s : State} (h : s.eng.op = .dec) : engineStep s = decStep s := by
  simp only [engineStep, h]

/-- Settles O23: the step's first two tests are the end of the input and the stuff position. -/
theorem endAfterCountedOnesIsMalformed : Obligations.EndAfterCountedOnesIsMalformed := by
  intro s _ hop hend hk
  rw [engineStep_of_dec hop, decStep, if_pos hend, if_pos hk]

/-- Settles O21: each of its clauses is one case of `decStep_cases`. -/
theorem decodeStepDropsStuffBits : Obligations.DecodeStepDropsStuffBits := by
  intro s hinv hb hop hmore b t
  have hself := midStep_refl hinv hb
  obtain ⟨-, -, -, -, heng⟩ := hinv
  obtain ⟨-, hi, -, -, -, hdec, -⟩ := heng hb
  obtain ⟨hrun, hoi⟩ := hdec hop
  have hin : s.eng.i.toNat < s.eng.n.toNat := toNat_lt_of_le_of_ne hi hmore
  have hstep : t = decStep s := engineStep_of_dec hop
  rcases decStep_cases s with ⟨hend, -⟩ | ⟨hend, -⟩ | ⟨-, hk, hone, hraise⟩ | ⟨-, hk, hzero, hnext⟩ |
      ⟨-, hk, hnone, -⟩ | ⟨c, -, hk, hput, hnext⟩
  · exact absurd hend hmore
  · exact absurd hend hmore
  · have hone : b = true := hone
    have ht := hstep.trans hraise
    refine ⟨fun _ _ => ⟨ht, ?_⟩, fun _ hzero => absurd (hone.symm.trans hzero) (by decide),
      fun hne => absurd hk hne⟩
    rw [ht]
    exact ⟨rfl, rfl⟩
  · have hzero : b = false := hzero
    have ht := hstep.trans hnext
    refine ⟨fun _ hone => absurd (hzero.symm.trans hone) (by decide), fun _ _ => ?_, fun hne => absurd hk hne⟩
    rw [ht]
    exact ⟨rfl, increment_toNat_of_lt hin⟩
  · refine ⟨fun h => absurd h hk, fun h => absurd h hk, fun _ hroom => ?_⟩
    exact absurd (putBit_eq_none_iff.1 hnone) (Nat.not_le.2 hroom)
  · refine ⟨fun h => absurd h hk, fun h => absurd h hk, fun _ _ => ?_⟩
    have hn := s.eng.n.isLt
    have ho : s.eng.o.toNat + 1 < 2 ^ 32 := by omega
    have ht := hstep.trans hnext
    obtain ⟨hoc, hrunc, -⟩ := putBit_cursors hput ho
    obtain ⟨hi', hcopy, hkept, hframe⟩ := nextInputBit_of_copied (copied_putBit hself ho hput) hin ht
    have ho' : t.eng.o.toNat = s.eng.o.toNat + 1 := by rw [ht]; exact hoc
    have hrun' : t.eng.run.toNat = if b then s.eng.run.toNat + 1 else 0 := by
      have hlt : s.eng.run.toNat < s.eng.k.toNat := toNat_lt_of_le_of_ne hrun hk
      rw [ht, ← increment_toNat_of_lt hlt, ← hrunc]
      exact apply_ite BitVec.toNat ..
    exact ⟨hframe, hi', ho', hrun', hcopy, hkept⟩

/-! ## The scan of DECODE and its capacity (42_decode.md R151) -/

/-- Without room for all the data bits, DECODE's scan ends at the first one that has none. -/
theorem foldlM_scanBit_dec_full {k cap : Nat} (y : List Bool) (c : Scan) (hfits : c.out.length ≤ cap)
    (hfull : cap < c.out.length + dataBitsGo k y c.run) :
    y.foldlM (scanBit .dec k cap) c = .error .capacityExceeded := by
  induction y generalizing c with
  | nil => exact absurd hfull (Nat.not_lt.2 hfits)
  | cons b y ih =>
    by_cases hk : c.run = k
    · cases b with
      | true =>
        rw [dataBitsGo_malformed hk] at hfull
        omega
      | false =>
        rw [dataBitsGo_drop hk] at hfull
        rw [foldlM_cons_of_ok (scanBit_dec_drop hk)]
        exact ih _ hfits hfull
    · by_cases hroom : c.out.length < cap
      · rw [dataBitsGo_copy hk] at hfull
        rw [foldlM_cons_of_ok (scanBit_dec_copy hk hroom)]
        exact ih _ (by simpa using hroom) (by simp only [List.length_append, List.length_singleton]; omega)
      · exact foldlM_cons_of_error (scanBit_dec_full hk (by omega))

theorem scanAll_dec_full {k cap : Nat} {y : List Bool} (hfull : cap < dataBits k y) :
    scanAll .dec k cap y = .error .capacityExceeded := by
  have hscan : scanBits .dec k cap y = .error .capacityExceeded :=
    foldlM_scanBit_dec_full y _ (Nat.zero_le cap) (hfull.trans_eq (Nat.zero_add _).symm)
  rw [scanAll, hscan]
  rfl

/-- With room for the data bits, DECODE's scan of malformed input finds it malformed. -/
theorem foldlM_scanBit_dec_malformed {k cap : Nat} (y : List Bool) (c : Scan)
    (hroom : c.out.length + dataBitsGo k y c.run ≤ cap) (hbad : wellFormedGo k y c.run = false) :
    (y.foldlM (scanBit .dec k cap) c).bind (scanEnd .dec k) = .error .malformedStuffedInput := by
  induction y generalizing c with
  | nil =>
    have hk : c.run = k := by simpa [wellFormedGo] using hbad
    exact if_pos ⟨rfl, hk⟩
  | cons b y ih =>
    by_cases hk : c.run = k
    · cases b with
      | true =>
        rw [foldlM_cons_of_error (scanBit_dec_malformed hk)]
        rfl
      | false =>
        rw [dataBitsGo_drop hk] at hroom
        rw [wellFormedGo_false] at hbad
        rw [foldlM_cons_of_ok (scanBit_dec_drop hk)]
        exact ih _ hroom hbad
    · rw [dataBitsGo_copy hk] at hroom
      rw [wellFormedGo_copy hk] at hbad
      rw [foldlM_cons_of_ok (scanBit_dec_copy hk (by omega))]
      exact ih _ (by simp only [List.length_append, List.length_singleton]; omega) hbad

theorem scanAll_dec_malformed {k cap : Nat} {y : List Bool} (hroom : dataBits k y ≤ cap)
    (hbad : wellFormedStuffed k y = false) : scanAll .dec k cap y = .error .malformedStuffedInput :=
  foldlM_scanBit_dec_malformed y _ ((Nat.zero_add _).trans_le hroom) hbad

/-! ## Whole operations (42_decode.md R148, R151) -/

/-- Settles O55: the engine follows the scan, which ends as capacity and input allow. -/
theorem decodeRunEndsAsInputAndCapacityAllow : Obligations.DecodeRunEndsAsInputAndCapacityAllow := by
  intro a s hmem hidle hp hw
  refine ⟨_, exec_decode_started hidle hp hw, ?_⟩
  intro y p t
  have hlen : p ≤ s.inLen.toNat := (dataBitsGo_le _ y 0).trans_eq (seqBits_length ..)
  have hended : Ended s t (scanAll .dec s.k.toNat (8 * s.outCap.toNat) y) := ended_engineRun hmem hp hw
  refine ⟨fun hfull => ?_, fun hroom hbad => ?_, fun hroom hwell => ?_,
    fun x hx => (length_eq_dataBitsGo_of_decGo hx).symm, hlen⟩
  · rw [scanAll_dec_full hfull] at hended
    exact hended
  · rw [scanAll_dec_malformed hroom hbad] at hended
    exact hended
  · rw [← isSome_decBits] at hwell
    obtain ⟨x, hx⟩ := Option.isSome_iff_exists.1 hwell
    have hxp : x.length = p := length_eq_dataBitsGo_of_decGo hx
    have hok := scanAll_dec hx (hxp.trans_le hroom)
    rw [hok] at hended
    exact ⟨hended.status, hended.length.trans hxp, fun m hm => busy_engineRun_of_ok hmem hp hw hok hm⟩

/-- Every part of an engine step keeps memory in canonical form. -/
theorem memoryWf_kept : KeptByEngineParts (fun s => memoryWf s.mem = true) where
  putBit hs hput := by
    obtain ⟨-, rfl⟩ := putBit_eq_some hput
    exact memoryWf_memWrite hs
  setRun hs := hs
  nextInputBit hs := hs
  complete hs := hs
  raiseError hs := memoryWf_memFillFree hs

theorem memoryWf_engineTurn {s : State} (h : memoryWf s.mem = true) : memoryWf (engineTurn s).mem = true := by
  rcases hb : busy s
  · rwa [engineTurn_of_idle hb]
  · rw [engineTurn_of_busy hb]
    exact keptByEngineParts_engineStep memoryWf_kept h

theorem memoryWf_engineRun {s : State} (m : Nat) (h : memoryWf s.mem = true) :
    memoryWf (engineRun m s).mem = true := by
  induction m generalizing s with
  | zero => exact h
  | succ m ih => exact ih (memoryWf_engineTurn h)

theorem engineRun_k (m : Nat) (s : State) : (engineRun m s).k = s.k := by
  induction m generalizing s with
  | zero => rfl
  | succ m ih => exact (ih _).trans (engineKeepsOperandRegisters s).1

/-- Settles O57: the ENCODE leaves Enc_K(x) as the DECODE's input, memory canonical and K as it was; Dec_K takes it back
to `x`. -/
theorem encodeThenDecodeRestoresInput : Obligations.EncodeThenDecodeRestoresInput := by
  intro a b s s₁ out cap hmem hidle hp hw hroom hstart t u hwu hcap
  obtain rfl : started .enc s = s₁ := Host.Outcome.next.inj ((exec_encode_started hidle hp hw).symm.trans hstart)
  have hpos : 1 ≤ s.k.toNat := Nat.pos_of_ne_zero fun h => hp.1 (BitVec.eq_of_toNat_eq h)
  have hencoded := ended_engineRun hmem hp hw
  rw [scanAll_enc hroom] at hencoded
  obtain ⟨hstatus, hlen, hbits, -, -⟩ := hencoded
  have hmemu : memoryWf u.mem = true := memoryWf_engineRun (s := started .enc s) _ hmem
  have hidleu : busy u = false := (congrArg statusBusy hstatus).trans statusBusy_success
  have hku : u.k = s.k := engineRun_k _ (started .enc s)
  have hpu : ParamsOk .dec u := hku.trans_ne hp.1
  have hinput : seqBits u.mem u.inAddr u.inLen.toNat =
      encBits s.k.toNat (seqBits s.mem s.inAddr s.inLen.toNat) := by
    rw [hlen]
    exact hbits
  refine ⟨_, exec_decode_started hidleu hpu hwu, ?_⟩
  have hdecoded := ended_engineRun hmemu hpu hwu
  rw [hinput, hku, scanAll_dec (unstuffingInvertsStuffing _ _ hpos) (by rwa [seqBits_length])] at hdecoded
  obtain ⟨hstatus', hlen', hbits', -, -⟩ := hdecoded
  rw [seqBits_length] at hlen' hbits'
  exact ⟨hstatus', BitVec.eq_of_toNat_eq hlen', hbits'⟩

end Sys2Proof.Machine

namespace Sys2Proof.Machine

/-! # Proofs of the family 60_exceptions.md -/

/-! ## InvalidParameter at the CMD write (60_exceptions.md R164) -/

/-- A zero K or an overflowing length bound fails ENCODE's parameter check (R121). -/
theorem not_paramsOk_enc {s : State}
    (h : s.k = 0 ∨ 2 ^ 32 - 1 < s.inLen.toNat + (s.inLen.toNat + s.k.toNat - 1) / s.k.toNat + 8) :
    ¬ ParamsOk .enc s := by
  rintro ⟨hk, hbound⟩
  rcases h with hzero | hover
  · exact hk hzero
  · exact Nat.not_lt.2 hbound hover

/-- `completeInvalid` with its STATUS word written out (R164). -/
theorem completeInvalid_eq (s : State) : completeInvalid s = { s with status := 0x0000000E, outLen := 0 } := rfl

/-- Settles O10: all three commands complete by `completeInvalid`, the two starts because their check fails. -/
theorem invalidParameterStartTouchesNothingElse : Obligations.InvalidParameterStartTouchesNothingElse := by
  intro a s hidle
  obtain ⟨henc, hdec⟩ := exec_start_of_idle (a := a) hidle
  rw [henc, hdec, exec_reserved_of_idle hidle, ← completeInvalid_eq]
  exact ⟨fun h => start_of_not_paramsOk (not_paramsOk_enc h),
    fun hzero => start_of_not_paramsOk fun hk => hk hzero, rfl⟩

/-! ## Error entry in an engine step (60_exceptions.md R160, R163) -/

@[simp] theorem statusDone_failed (e : ErrorKind) : statusDone (statusFailed e) = true := by cases e <;> rfl

@[simp] theorem statusErr_failed (e : ErrorKind) : statusErr (statusFailed e) = errCode e := by cases e <;> rfl

@[simp] theorem statusReserved_failed (e : ErrorKind) : statusReserved (statusFailed e) = 0 := by cases e <;> rfl

/-- An output window is never larger than data memory: eng.cap_bits has 35 bits (R30). -/
theorem outWindow_len_le (e : Engine) : (outWindow e).len ≤ 2 ^ 32 := by
  have := e.capBits.isLt
  simp only [outWindow]
  omega

/-- Settles O24: raising an error is a report, which touches no memory, after the output window is forgotten, which touches
no register. -/
theorem errorEntryEffects : Obligations.ErrorEntryEffects := by
  intro e s hmem t
  exact ⟨statusBusy_failed e, statusDone_failed e, statusErr_failed e, statusReserved_failed e, rfl,
    fun _ hb => memRead_forgetWindow_inside hmem (outWindow_len_le s.eng) hb,
    fun _ hx => memRead_forgetWindow_outside hx, rfl, rfl, rfl, rfl, rfl, rfl, rfl⟩

/-! ## Which errors an engine step reports (60_exceptions.md R160 to R162) -/

theorem engineStep_of_enc {s : State} (h : s.eng.op = .enc) : engineStep s = encStep s := by
  simp only [engineStep, h]

/-- Settles O22: where the input has not ended and the bit is no stuff bit, the step of either operation begins with a
PutBit, here one without room. -/
theorem fullOutputRaisesCapacityExceeded : Obligations.FullOutputRaisesCapacityExceeded := by
  intro s _ hmore hfull hdata
  have hnone : putBit (getBit s) s = none := putBit_eq_none_iff.2 hfull
  cases hop : s.eng.op with
  | enc => rw [engineStep_of_enc hop, encStep, if_neg hmore, hnone]
  | dec => rw [engineStep_of_dec hop, decStep, if_neg hmore, if_neg (hdata hop), hnone]

/-- An ENCODE step keeps STATUS, succeeds, or reports CapacityExceeded: of its parts only PutBit raises (R162). -/
theorem encStep_status_cases (s : State) :
    (encStep s).status = s.status ∨ (encStep s).status = statusSuccess ∨
      (encStep s).status = statusFailed .capacityExceeded := by
  rcases encStep_cases s with ⟨-, h⟩ | ⟨-, -, h⟩ |
      ⟨c, -, hc, ⟨-, h⟩ | ⟨-, -, h⟩ | ⟨-, -, -, h⟩ | ⟨-, -, d, hd, h⟩⟩ <;> rw [h]
  case inl => exact .inr (.inl rfl)
  case inr.inl => exact .inr (.inr rfl)
  case inr.inr.inl => exact .inl (putBit_result hc).1
  case inr.inr.inr.inl => exact .inl (putBit_result hc).1
  case inr.inr.inr.inr.inl => exact .inr (.inr rfl)
  case inr.inr.inr.inr.inr => exact .inl ((putBit_result hd).1.trans (putBit_result hc).1)

/-- No step of either operation reports InvalidParameter, which belongs to the CMD write (R164). -/
theorem engineStep_status_ne_invalidParameter {s : State} (h : (engineStep s).status ≠ s.status) :
    (engineStep s).status ≠ statusFailed .invalidParameter := by
  rcases resultKeptOrEnded_engineStep s with ⟨hkept, -⟩ | hend | hend | hend
  · exact absurd hkept h
  all_goals
    rw [hend]
    decide

/-- Settles O29: of the three ways an ENCODE step leaves STATUS, the two that write it are 0x2 and 0x6. -/
theorem encodeNeverMalformed : Obligations.EncodeNeverMalformed := by
  intro s _
  refine ⟨fun hop hwritten => ?_, engineStep_status_ne_invalidParameter⟩
  rw [engineStep_of_enc hop] at hwritten ⊢
  exact (encStep_status_cases s).resolve_left hwritten

end Sys2Proof.Machine

namespace Sys2Proof.Machine

/-! # Proofs of the family 70_reset_and_hazards.md -/

/-! ## An operation ends (70_reset_and_hazards.md R190) -/

/-- What an engine step does to the input cursor: it ends the operation, or takes one of the input bits left. -/
def EndedOrTookInputBit (s t : State) : Prop :=
  busy t = false ∨ (s.eng.i ≠ s.eng.n ∧ t.eng.i = increment s.eng.i ∧ t.eng.n = s.eng.n)

theorem putBit_input {b : Bool} {s t : State} (h : putBit b s = some t) :
    t.eng.i = s.eng.i ∧ t.eng.n = s.eng.n := by
  obtain ⟨-, rfl⟩ := putBit_eq_some h
  exact ⟨rfl, rfl⟩

theorem endedOrTookInputBit_nextInputBit_setRun {s c : State} {r : Word} (hmore : s.eng.i ≠ s.eng.n)
    (hc : c.eng.i = s.eng.i ∧ c.eng.n = s.eng.n) : EndedOrTookInputBit s (nextInputBit (setRun r c)) :=
  .inr ⟨hmore, congrArg increment hc.1, hc.2⟩

theorem endedOrTookInputBit_encStep (s : State) : EndedOrTookInputBit s (encStep s) := by
  rcases encStep_cases s with ⟨-, h⟩ | ⟨-, -, h⟩ |
      ⟨c, hmore, hc, ⟨-, h⟩ | ⟨-, -, h⟩ | ⟨-, -, -, h⟩ | ⟨-, -, d, hd, h⟩⟩ <;> rw [h]
  case inl => exact .inl (busy_complete s)
  case inr.inl => exact .inl (busy_raiseError s _)
  case inr.inr.inl => exact endedOrTookInputBit_nextInputBit_setRun hmore (putBit_input hc)
  case inr.inr.inr.inl => exact endedOrTookInputBit_nextInputBit_setRun hmore (putBit_input hc)
  case inr.inr.inr.inr.inl => exact .inl (busy_raiseError _ _)
  case inr.inr.inr.inr.inr =>
    obtain ⟨hci, hcn⟩ := putBit_input hc
    obtain ⟨hdi, hdn⟩ := putBit_input hd
    exact endedOrTookInputBit_nextInputBit_setRun hmore ⟨hdi.trans hci, hdn.trans hcn⟩

theorem endedOrTookInputBit_decStep (s : State) : EndedOrTookInputBit s (decStep s) := by
  rcases decStep_cases s with ⟨-, -, h⟩ | ⟨-, -, h⟩ | ⟨-, -, -, h⟩ | ⟨hmore, -, -, h⟩ | ⟨-, -, -, h⟩ |
      ⟨c, hmore, -, hc, h⟩ <;> rw [h]
  · exact .inl (busy_raiseError s _)
  · exact .inl (busy_complete s)
  · exact .inl (busy_raiseError s _)
  · exact endedOrTookInputBit_nextInputBit_setRun hmore ⟨rfl, rfl⟩
  · exact .inl (busy_raiseError s _)
  · exact endedOrTookInputBit_nextInputBit_setRun hmore (putBit_input hc)

theorem endedOrTookInputBit_engineTurn (s : State) : EndedOrTookInputBit s (engineTurn s) := by
  rcases hb : busy s
  · exact .inl (by rw [engineTurn_of_idle hb, hb])
  · rw [engineTurn_of_busy hb]
    cases hop : s.eng.op with
    | enc => exact engineStep_of_enc hop ▸ endedOrTookInputBit_encStep s
    | dec => exact engineStep_of_dec hop ▸ endedOrTookInputBit_decStep s

/-- A turn of the engine that leaves an operation running leaves one input bit less. -/
theorem engineTurn_inputLeft {s : State} (hinv : MachineInv s) (hb : busy s = true)
    (hb' : busy (engineTurn s) = true) :
    (engineTurn s).eng.n.toNat - (engineTurn s).eng.i.toNat + 1 = s.eng.n.toNat - s.eng.i.toNat := by
  obtain ⟨-, -, -, -, heng⟩ := hinv
  obtain ⟨-, hi, -⟩ := heng hb
  rcases endedOrTookInputBit_engineTurn s with hended | ⟨hmore, hi', hn'⟩
  · simp [hended] at hb'
  · have hlt := toNat_lt_of_le_of_ne hi hmore
    rw [hi', hn', increment_toNat_of_lt hlt]
    omega

/-- More turns than a running operation has input bits left end it, and an idle block stays idle. -/
theorem busy_engineRun_eq_false {m : Nat} {s : State} (hinv : MachineInv s)
    (hm : busy s = true → s.eng.n.toNat - s.eng.i.toNat < m) : busy (engineRun m s) = false := by
  induction m generalizing s with
  | zero => exact Bool.eq_false_iff.2 fun hb => Nat.not_lt_zero _ (hm hb)
  | succ m ih =>
    refine ih (machineInv_engineTurn hinv) fun hb' => ?_
    have hb : busy s = true := by
      by_contra hidle
      rw [engineTurn_of_idle (Bool.eq_false_iff.2 hidle)] at hb'
      exact hidle hb'
    have hleft := engineTurn_inputLeft hinv hb hb'
    have := hm hb
    omega

/-- Settles O45: each turn takes one of the input bits left, and with none left the operation ends. -/
theorem operationEndsWithinBound : Obligations.OperationEndsWithinBound := fun _ hinv _ =>
  busy_engineRun_eq_false hinv fun _ => Nat.lt_succ_self _

/-! ## The windows of a running operation (70_reset_and_hazards.md R185, R186) -/

/-- No byte of a running operation's input window is in its output window (R57). -/
theorem inWindow_outWindow_disjoint {s : State} (hinv : MachineInv s) (hb : busy s = true) :
    WindowsDisjoint (inWindow s.eng) (outWindow s.eng) := by
  obtain ⟨-, -, -, -, heng⟩ := hinv
  obtain ⟨-, -, -, -, -, -, hover, -⟩ := heng hb
  exact windowsOverlap_eq_false_iff.1 hover

theorem not_inWindow_of_outWindow {s : State} {x : Word} (hinv : MachineInv s) (hb : busy s = true)
    (hout : windowHas (outWindow s.eng) x = true) : windowHas (inWindow s.eng) x = false :=
  Bool.eq_false_iff.2 fun hin => inWindow_outWindow_disjoint hinv hb x ⟨hin, hout⟩

theorem not_outWindow_of_inWindow {s : State} {x : Word} (hinv : MachineInv s) (hb : busy s = true)
    (hin : windowHas (inWindow s.eng) x = true) : windowHas (outWindow s.eng) x = false :=
  Bool.eq_false_iff.2 fun hout => inWindow_outWindow_disjoint hinv hb x ⟨hin, hout⟩

/-- A running operation's input window is ordinary memory (R58). -/
theorem memOrdinary_of_inWindow {s : State} {x : Word} (hinv : MachineInv s) (hb : busy s = true)
    (hin : windowHas (inWindow s.eng) x = true) : memOrdinary s.platform x = true := by
  obtain ⟨-, -, -, -, heng⟩ := hinv
  obtain ⟨-, -, -, -, -, -, -, hordinary, -⟩ := heng hb
  exact windowOrdinary_iff.1 hordinary x hin

theorem hostMemRead_of_readsFree {s : State} {a : Word} {t : Nat} (h : readsFree s a = true) :
    hostMemRead a t s = tempWrite t (BitVec.zeroExtend 32 (Config.freeByte s.draws)) (countDraws 1 s) := if_pos h

theorem hostMemRead_of_not_readsFree {s : State} {a : Word} {t : Nat} (h : readsFree s a = false) :
    hostMemRead a t s = tempWrite t (BitVec.zeroExtend 32 (memRead s.mem a)) s := if_neg (by simp [h])

theorem hostMemWrite_of_inWindow {s : State} {a : Word} {v : Byte} (hb : busy s = true)
    (hin : windowHas (inWindow s.eng) a = true) : hostMemWrite a v s = .refused .inputWrittenWhileBusy := by
  simp [hostMemWrite, hb, hin]

theorem hostMemWrite_of_outWindow {s : State} {a : Word} {v : Byte} (hb : busy s = true)
    (hin : windowHas (inWindow s.eng) a = false) (hout : windowHas (outWindow s.eng) a = true) :
    hostMemWrite a v s = .refused .outputWrittenWhileBusy := by
  simp [hostMemWrite, hb, hin, hout]

/-- Settles O34: the byte is ordinary memory outside the output window, so reads see it and the engine leaves it. -/
theorem inputWindowHazard : Obligations.InputWindowHazard := by
  intro s x v t hinv hb hin
  have ⟨_, htemps, _⟩ := hinv
  have hread : readsFree s x = false := by
    simp [readsFree, not_outWindow_of_inWindow hinv hb hin, memOrdinary_of_inWindow hinv hb hin]
  exact ⟨hostMemWrite_of_inWindow hb hin, _, congrArg Host.Outcome.next (hostMemRead_of_not_readsFree hread), rfl,
    fun n hn => tempRead_tempWrite_other hn, tempRead_tempWrite_same htemps,
    (engineWritesOnlyOutputWindow s x hinv hb).2 hin⟩

/-- Settles O35: the byte is outside the input window, whose refusal comes first, and a read of it is free. -/
theorem outputWindowHazard : Obligations.OutputWindowHazard := by
  intro s x v t hinv hb hout
  have ⟨_, htemps, _⟩ := hinv
  have hread : readsFree s x = true := by simp [readsFree, hb, hout]
  exact ⟨hostMemWrite_of_outWindow hb (not_inWindow_of_outWindow hinv hb hout) hout, _,
    congrArg Host.Outcome.next (hostMemRead_of_readsFree hread), rfl,
    fun n hn => tempRead_tempWrite_other (s := countDraws 1 s) hn,
    tempRead_tempWrite_same (s := countDraws 1 s) htemps⟩

/-! ## A result is kept (70_reset_and_hazards.md R188) -/

/-- Only a write of CMD can touch the result registers: every other register write leaves them alone (R73). -/
theorem regWrite_cmd_or_keeps_result {r : Reg} {w : Word} {s t : State} (h : regWrite r w s = .next t) :
    (r = .cmd ∧ exec (decodeCommand w) s = .next t) ∨ (t.status = s.status ∧ t.outLen = s.outLen) := by
  rcases regWrite_next_cases h with hcmd | rfl | ⟨_, _, _, _, _, rfl⟩
  · exact .inl hcmd
  · exact .inr ⟨rfl, rfl⟩
  · exact .inr ⟨rfl, rfl⟩

/-- A host line is a CMD write, which is a command, or it leaves the result registers alone. -/
theorem hostOp_cmdWrite_or_keeps_result {op : HostOp} {s t : State} (h : hostOp op s = .next t) :
    (∃ w, op = .busWrite 4 (s.platform.regBase + regOffset .cmd) w ∧ exec (decodeCommand w) s = .next t) ∨
      (t.status = s.status ∧ t.outLen = s.outLen) := by
  cases op with
  | busWrite width addr w =>
    simp only [hostOp] at h
    split at h
    · cases h
    · next r hr =>
      obtain ⟨rfl, rfl⟩ := (busReachesExactlyEightRegisters ..).1 hr
      exact (regWrite_cmd_or_keeps_result h).imp_left fun ⟨hcmd, hexec⟩ => ⟨w, hcmd ▸ rfl, hexec⟩
  | memWrite a v =>
    simp only [hostOp, hostMemWrite] at h
    split at h
    · cases h
    · split at h
      · cases h
      · obtain rfl := Host.Outcome.next.inj h
        exact .inr ⟨rfl, rfl⟩
  | memRead a x =>
    obtain rfl := Host.Outcome.next.inj h
    rcases hread : readsFree s a
    · exact .inr (hostMemRead_of_not_readsFree (t := x) hread ▸ ⟨rfl, rfl⟩)
    · exact .inr (hostMemRead_of_readsFree (t := x) hread ▸ ⟨rfl, rfl⟩)
  | busRead width addr x =>
    simp only [hostOp] at h
    split at h
    · cases h
    · obtain rfl := Host.Outcome.next.inj h
      exact .inr ⟨rfl, rfl⟩
  | branchNonZero x m label =>
    obtain h := Host.Outcome.next.inj h
    split at h <;> exact .inr (h ▸ ⟨rfl, rfl⟩)

/-- A word whose OP field is 0 is a NOP (R75, R101). -/
theorem exec_decodeCommand_of_op_zero {w : Word} {s : State} (h : w.extractLsb' 0 2 = 0) :
    exec (decodeCommand w) s = .next s := by
  obtain ⟨a, hnop⟩ := eq_nop_of_opOf ((opOf_decodeCommand w).trans h)
  rw [hnop, exec_nop]

/-- Settles O39: of all host lines only a CMD write could touch the result, and here it is a NOP. -/
theorem resultKeptUntilNextStart : Obligations.ResultKeptUntilNextStart := by
  intro s hidle
  refine ⟨engineTurn_of_idle hidle, fun op t h hnop => ?_⟩
  rcases hostOp_cmdWrite_or_keeps_result h with ⟨w, hop, hexec⟩ | hkept
  · obtain rfl : s = t := Host.Outcome.next.inj ((exec_decodeCommand_of_op_zero (hnop w hop)).symm.trans hexec)
    exact ⟨rfl, rfl⟩
  · exact hkept

/-! ## Reset (70_reset_and_hazards.md R180 to R182) -/

theorem resetStep_mem_of_idle {s : State} (h : busy s = false) : (resetStep s).mem = s.mem := by
  simp [resetStep, h]

theorem resetStep_mem_of_busy {s : State} (h : busy s = true) :
    (resetStep s).mem = (forgetWindow (outWindow s.eng) s).mem := by simp [resetStep, h]

/-- Settles O42: reset forgets the output window of the operation it abandons, disjoint from the input window. -/
theorem resetMemoryEffects : Obligations.ResetMemoryEffects := by
  intro s hinv
  refine ⟨resetStep_mem_of_idle, fun hb => ?_⟩
  have ⟨hmem, _⟩ := hinv
  rw [resetStep_mem_of_busy hb]
  exact ⟨rfl, fun _ hbyte => memRead_forgetWindow_inside hmem (outWindow_len_le s.eng) hbyte,
    fun _ hin => memRead_forgetWindow_outside (not_outWindow_of_inWindow hinv hb hin),
    fun _ hout => memRead_forgetWindow_outside hout⟩

theorem step_of_resetNext {s : State} {rest : List Agent} (h : s.agenda = .reset :: rest) :
    step s = .next (resetStep (setAgenda rest s)) := by simp only [step, h, agentTurn]

/-- A reset leaves the agenda, the host and the platform alone, whether or not it abandons an operation. -/
theorem resetStep_frame (s : State) :
    (resetStep s).agenda = s.agenda ∧ (resetStep s).host = s.host ∧ (resetStep s).platform = s.platform := by
  unfold resetStep
  split <;> exact ⟨rfl, rfl, rfl⟩

/-- Settles O41: the registers are set outright, and a reset block is idle. -/
theorem resetStepSetsRegisters : Obligations.ResetStepSetsRegisters := by
  intro s rest h t
  exact ⟨step_of_resetNext h, rfl, rfl, rfl, rfl, rfl, rfl, rfl, busy_resetStep _,
    engineTurn_of_idle (busy_resetStep _), resetStep_frame (setAgenda rest s)⟩

/-! ## The machine at rest (70_reset_and_hazards.md R180, 40_command.md R107) -/

/-- Past the end of its program the host has no line to run. -/
theorem hostTurn_of_ended {s : State} (h : s.host.prog.length ≤ s.host.pc) : hostTurn s = .next s := by
  simp only [hostTurn, List.getElem?_eq_none h]

/-- Settles O18: the unnamed turn is the host's, which has no line left. -/
theorem idleMachineRests : Obligations.IdleMachineRests := fun _ hagenda hidle hended =>
  (step_of_idle_unnamed hagenda hidle).trans (hostTurn_of_ended hended)

end Sys2Proof.Machine
